-- ==== Sys2Proof/Word.lean ====
section
/-! DEFINITION. The byte, and the index of a general register (00_scope.md R7, R10). -/

namespace Sys2Proof

/-- Every register, memory cell, address, PC value and operand is an unsigned byte (R7, R10). -/
abbrev Byte := BitVec 8

/-- The number of one of the eight general registers R0 to R7 (R7, R20). -/
abbrev RegIdx := Fin 8

end Sys2Proof
end

