-- ==== Sys2Proof/Config.lean ====
section
/-! DEFINITION. The parameters the spec leaves to an implementation (00_scope.md R8), with this hardware's value
of each. Both values of each parameter are modelled: the meanings take a `Config.Policy`, and the machine of
Machine/Dispatch.lean and Machine/Step.lean is theirs at `Config.hardware` (DEDUCED, safe: assumption log 4). The spec leaves no other value open on this
hardware, so there is no free value here. -/

namespace Sys2Proof.Config

/-- `OVERFLOW_POLICY` (R8, R12): what becomes of a computed value outside 0..255. -/
inductive OverflowPolicy where
  /-- reduced modulo 256 -/
  | wrap
  /-- raises `Overflow` -/
  | fault
deriving DecidableEq, Repr

/-- `PUSH_POLICY` (R8): which of two semantics PUSH has. -/
inductive PushPolicy where
  /-- decrement SP, then store the register (43_stack.md R130) -/
  | conventional
  /-- decrement the pushed register, then store it at SP (43_stack.md R131) -/
  | sourceQuirk
deriving DecidableEq, Repr

/-- The two parameters a model may take as arguments (R8). -/
structure Policy where
  overflow : OverflowPolicy
  push     : PushPolicy
deriving DecidableEq, Repr

/-- The values this hardware takes (R8): `Wrap` and `Conventional`. -/
def hardware : Policy := { overflow := .wrap, push := .conventional }

/-- `MEM_SIZE` (R7): the number of memory cells. -/
def memSize : Nat := 256

/-- `SP_INDEX` (R7, R21): the register PUSH, POP, CALL and RET use as the stack pointer. -/
def spIndex : RegIdx := 7

end Sys2Proof.Config
end

