-- ==== Sys2Proof/Machine/State.lean ====
section
/-! DEFINITION. The machine's whole state as plain data (10_state.md R20 to R33; 20_memory.md R40), its value after reset
(70_reset_and_hazards.md R190), and the reasons a step or a host move can stop. -/

namespace Sys2Proof.Machine

/-- The state of the execution-loop state machine (R29). -/
inductive Phase where
  /-- after reset, before `run` -/
  | load
  /-- fetching and executing -/
  | running
  /-- stopped by HLT -/
  | halted
  /-- stopped by a fatal error -/
  | faulted
deriving DecidableEq, Repr

/-- The operation tag the ALU is given (42_alu.md R110). `other` stands for any tag outside the three; no instruction
selects it (R174), and how such a tag is written is not in the spec. DESIGN CHOICE, safe: assumption log 6. -/
inductive AluTag where
  | add
  | mul
  | cmp
  | other (tag : Nat)
deriving DecidableEq, Repr

/-- A fault kind together with the detail recorded for it (60_exceptions.md R170). -/
inductive FaultCause where
  /-- the opcode byte is not in the table; no detail (R171) -/
  | invalidOpcode
  /-- a register operand the instruction uses is 8 or more; detail: the operand byte (R173) -/
  | invalidRegister (operand : Byte)
  /-- `wrap8` met a value outside 0..255 under `OVERFLOW_POLICY = Fault`; detail: the value (R175) -/
  | overflow (value : Int)
  /-- the ALU was given a tag outside ADD, MUL, CMP; detail: the tag (R174) -/
  | unsupportedAluOperation (tag : AluTag)
deriving DecidableEq, Repr

/-- The fault record (R31): kind and detail, the PC of the faulting instruction, and its opcode byte. Kind
and detail are one value, the cause. DESIGN CHOICE of form, safe: assumption log 12. -/
structure FaultRecord where
  cause  : FaultCause
  pc     : Byte
  opcode : Byte
deriving DecidableEq, Repr

/-- Memory (R40) as the list of its nonzero cells, addresses strictly rising. A cell that is not listed holds 0, the
reset value of every cell. DEDUCED, safe: assumption log 11. -/
abbrev Memory := List Host.Cell

/-- The whole architectural state (R33). -/
structure State where
  /-- R0 to R7; index 7 is the stack pointer (R20, R21) -/
  regs        : Vector Byte 8
  /-- the program counter (R24) -/
  pc          : Byte
  /-- the flag register: E is bit 0, G is bit 1, L is bit 2, bits 7:3 are 0 (R26) -/
  fl          : Byte
  /-- the phase of the execution loop; the running flag is a view of it (R29, R30) -/
  phase       : Phase
  /-- the fault record, empty until a fault (R31) -/
  faultRecord : Option FaultRecord
  /-- the bytes PRN has emitted, oldest first (R32) -/
  output      : List Byte
  /-- the 256 cells of memory (R40) -/
  mem         : Memory
deriving DecidableEq, Repr

/-- Reset (R190): every register, PC, FL and memory cell is 0, the phase is LOAD, nothing is recorded or emitted. -/
def State.reset : State :=
  { regs := Vector.replicate 8 0, pc := 0, fl := 0, phase := .load, faultRecord := none, output := [], mem := [] }

/-- Why a state has no step. These are stuck states, not the spec's faults: a fault of the spec is taken as a next
state in phase FAULTED (60_exceptions.md R172). DEDUCED, safe: assumption log 1 and 2. -/
inductive Fault where
  /-- The phase is LOAD: the core waits for the host's `run` (R80). Raised by `step`. Safe: nothing executes there. -/
  | notStarted
  /-- The phase is HALTED, which is terminal (R80, R89). Raised by `step`. Safe: nothing executes there. -/
  | halted
  /-- The phase is FAULTED, which is terminal (R80, R172). Raised by `step`. Safe: nothing executes there. -/
  | faulted
deriving DecidableEq, Repr

/-- Why a move has no meaning. -/
inductive Refusal where
  /-- An instruction without a meaning, by its mnemonic. Raised by no arm of `exec`: all 13 have their meaning. Safe. -/
  | notModelled (mnemonic : String)
  /-- The host loads outside LOAD, a move it does not have (R193). Raised by `hostLoad`. Safe. -/
  | loadOutsideLoadPhase
  /-- The image is longer than memory (R194). Raised by `hostLoad`. Safe: the spec refuses it too. -/
  | imageTooLong
  /-- The host issues `run` in a phase other than LOAD (R195). Raised by `hostRun`. Safe: the spec refuses it too. -/
  | runOutsideLoadPhase
deriving DecidableEq, Repr

end Sys2Proof.Machine
end

