-- ==== Sys2Proof/Machine/Ops.lean ====
section
/-! DEFINITION. The named operations over memory and registers, `wrap8`, and taking a fault: the primitives of the spec's
pseudocode (00_scope.md R11, R12; 20_memory.md R40 to R49; 40_execution_loop.md R86; 60_exceptions.md R172). -/

namespace Sys2Proof.Machine

/-! ### Memory -/

/-- Memory's one canonical form: addresses rise strictly from `lo` on and stay below 256, and no listed cell is 0. -/
def Memory.wfFrom (lo : Nat) : Memory → Bool
  | [] => true
  | (a, v) :: m => decide (lo ≤ a) && decide (a < 256) && decide (v ≠ 0) && Memory.wfFrom (a + 1) m

/-- Memory is in its canonical form. -/
def Memory.wf (m : Memory) : Bool := Memory.wfFrom 0 m

/-- The cell of address number `a`; an unlisted cell is 0 (R40). -/
def Memory.cell : Memory → Nat → Byte
  | [], _ => 0
  | (b, v) :: m, a => if b = a then v else Memory.cell m a

/-- `MemRead(addr, 1)` (R42). -/
def Memory.read (m : Memory) (addr : Byte) : Byte := Memory.cell m addr.toNat

/-- Drop the entry of address number `a`, which makes the cell 0. -/
def Memory.clear (m : Memory) (a : Nat) : Memory := m.filter fun c => c.1 != a

/-- List address number `a` with the byte `v`, in its place by address. -/
def Memory.insert : Memory → Nat → Byte → Memory
  | [], a, v => [(a, v)]
  | (b, w) :: m, a, v =>
    if a < b then (a, v) :: (b, w) :: m
    else if a = b then (a, v) :: m
    else (b, w) :: Memory.insert m a v

/-- `MemWrite(addr, 1, v)` (R42, R43): sets one cell. Writing 0, what an unlisted cell holds, removes the entry. -/
def Memory.write (m : Memory) (addr v : Byte) : Memory :=
  if v = 0 then Memory.clear m addr.toNat else Memory.insert m addr.toNat v

/-! ### Registers and the other state -/

/-- `x[r]` read (R11, R20). -/
def State.reg (s : State) (r : RegIdx) : Byte := s.regs[r]

/-- `x[r] <- v` (R11, R20). -/
def State.setReg (s : State) (r : RegIdx) (v : Byte) : State := { s with regs := s.regs.set r v }

/-- `SP`, another name of `x[7]` (R11, R21). -/
def State.sp (s : State) : Byte := s.reg Config.spIndex

/-- `SP <- v`. -/
def State.setSp (s : State) (v : Byte) : State := s.setReg Config.spIndex v

/-- `PC <- target` (R11). -/
def State.setPc (s : State) (target : Byte) : State := { s with pc := target }

/-- `FL <- v` (R26). -/
def State.setFl (s : State) (v : Byte) : State := { s with fl := v }

/-- `phase <- p` (R29). -/
def State.setPhase (s : State) (p : Phase) : State := { s with phase := p }

/-- `Emit(v)` (R11, R32): appends the byte to the output trace. -/
def State.emit (s : State) (v : Byte) : State := { s with output := s.output ++ [v] }

/-- `MemRead(addr, 1)` on the state. -/
def State.load (s : State) (addr : Byte) : Byte := s.mem.read addr

/-- `MemWrite(addr, 1, v)` on the state. -/
def State.store (s : State) (addr v : Byte) : State := { s with mem := s.mem.write addr v }

/-! ### wrap8 -/

/-- `wrap8(v)` (R12): brings an exact integer to a byte, modulo 256 under `Wrap`; under `Fault` a value outside 0..255
raises `Overflow`. -/
def wrap8 (p : Config.OverflowPolicy) (v : Int) : Except FaultCause Byte :=
  match p with
  | .wrap  => .ok (BitVec.ofInt 8 v)
  | .fault => if 0 ≤ v ∧ v ≤ 255 then .ok (BitVec.ofInt 8 v) else .error (.overflow v)

/-- `PC <- wrap8(PC + n)`: the fall-through of an instruction of `n` bytes (R25). Under `Fault` it overflows from PC 253
with `n` = 3, against a derived remark of R175. DEDUCED, safe: assumption log 7. -/
def advance (p : Config.Policy) (n : Nat) (s : State) : Except FaultCause State := do
  let pc ← wrap8 p.overflow (s.pc.toNat + n)
  pure (s.setPc pc)

/-! ### Faults -/

/-- The number of a fault's kind in the fault record (60_exceptions.md R170). -/
def faultCode : FaultCause → Nat
  | .invalidOpcode => 1
  | .invalidRegister _ => 2
  | .overflow _ => 3
  | .unsupportedAluOperation _ => 4

/-- Taking a fault (R172), given the state before the step: the phase becomes FAULTED and the record is written; PC,
registers, FL, memory and output keep their values. There is no return from it (R179). -/
def takeFault (cause : FaultCause) (s : State) : State :=
  { s with
    phase := .faulted
    faultRecord := some { cause := cause, pc := s.pc, opcode := s.load s.pc } }

/-- A step is atomic (R86): a handler that completes gives its state; one that raises leaves the state `s` from before
the step, on which the fault is taken. Either is a next state. -/
def commit (s : State) : Except FaultCause State → Host.Outcome State Fault Refusal
  | .ok t => .next t
  | .error cause => .next (takeFault cause s)

end Sys2Proof.Machine
end

