-- ==== Sys2Proof/Machine/Flags.lean ====
section
/-! DEFINITION. The flag register's bits and the one flag computation, CMP's (10_state.md R26; 42_alu.md R114). -/

namespace Sys2Proof.Machine

/-- FL with E alone set (R27). -/
def flagE : Byte := 0b00000001

/-- FL with G alone set (R27). -/
def flagG : Byte := 0b00000010

/-- FL with L alone set (R27). -/
def flagL : Byte := 0b00000100

/-- `FL.E` (R11, R26): bit 0. -/
def State.flE (s : State) : Bool := s.fl.getLsbD 0

/-- `FL.G` (R11, R26): bit 1. -/
def State.flG (s : State) : Bool := s.fl.getLsbD 1

/-- `FL.L` (R11, R26): bit 2. -/
def State.flL (s : State) : Bool := s.fl.getLsbD 2

/-- What CMP writes to FL for the operands' values (R114): E if equal, L if less as unsigned numbers, else G. -/
def compareFlags (x y : Byte) : Byte :=
  if x = y then flagE else if x.toNat < y.toNat then flagL else flagG

end Sys2Proof.Machine
end

