-- ==== Sys2Proof/Machine/Operands.lean ====
section
/-! DEFINITION. The register operand form (00_scope.md R13; 30_encoding.md R61). It is the only form that needs decoding
by the handler: LDI's immediate is its byte unchanged, and there is no memory or displacement operand. -/

namespace Sys2Proof.Machine

/-- `reg(b)` (R13): a byte below 8 names that register; any other raises `InvalidRegister` with the byte. -/
def regOperand (b : Byte) : Except FaultCause RegIdx :=
  if h : b.toNat < 8 then .ok ⟨b.toNat, h⟩ else .error (.invalidRegister b)

/-- The operand byte that names register `r` (R61). -/
def regByte (r : RegIdx) : Byte := BitVec.ofNat 8 r.val

end Sys2Proof.Machine
end

