-- ==== Sys2Proof/Machine/Alu.lean ====
section
/-! DEFINITION. The ALU and its instructions ADD, MUL, CMP (42_alu.md R110 to R115). A handler is the spec's pseudocode
under a policy; a meaning is its handler under this hardware's policy, committed as one atomic step. -/

namespace Sys2Proof.Machine

/-- The ALU (R110): a state transformer over two register numbers and a tag. ADD and MUL compute the exact integer and
bring it to a byte by `wrap8` (R111); CMP writes FL alone; any other tag raises `UnsupportedALUOperation` (R174). -/
def alu (p : Config.Policy) (tag : AluTag) (a b : RegIdx) (s : State) : Except FaultCause State :=
  match tag with
  | .add => do
    let v ← wrap8 p.overflow ((s.reg a).toNat + (s.reg b).toNat)
    pure (s.setReg a v)
  | .mul => do
    let v ← wrap8 p.overflow ((s.reg a).toNat * (s.reg b).toNat)
    pure (s.setReg a v)
  | .cmp => pure (s.setFl (compareFlags (s.reg a) (s.reg b)))
  | .other t => .error (.unsupportedAluOperation (.other t))

/-- An ALU instruction of format RR: decode `a`, then `b` (R84), run the ALU with the tag, advance by 3. -/
def aluInstr (p : Config.Policy) (tag : AluTag) (a b : Byte) (s : State) : Except FaultCause State := do
  let ra ← regOperand a
  let rb ← regOperand b
  let t ← alu p tag ra rb s
  advance p 3 t

/-- ADD's handler (R112). -/
def handleAdd (p : Config.Policy) (a b : Byte) (s : State) : Except FaultCause State := aluInstr p .add a b s

/-- MUL's handler (R113). -/
def handleMul (p : Config.Policy) (a b : Byte) (s : State) : Except FaultCause State := aluInstr p .mul a b s

/-- CMP's handler (R114). -/
def handleCmp (p : Config.Policy) (a b : Byte) (s : State) : Except FaultCause State := aluInstr p .cmp a b s

/-- ADD (R112). -/
def execAdd (a b : Byte) (s : State) : Host.Outcome State Fault Refusal := commit s (handleAdd Config.hardware a b s)

/-- MUL (R113). -/
def execMul (a b : Byte) (s : State) : Host.Outcome State Fault Refusal := commit s (handleMul Config.hardware a b s)

/-- CMP (R114). -/
def execCmp (a b : Byte) (s : State) : Host.Outcome State Fault Refusal := commit s (handleCmp Config.hardware a b s)

end Sys2Proof.Machine
end

