-- ==== Sys2Proof/Machine/Branch.lean ====
section
/-! DEFINITION. Branch control: JMP, JEQ, JNE (44_branch.md R150 to R153). Every target is the byte in the named register,
used as the PC unchanged; the only condition is FL.E; the register is decoded whether or not the branch is taken. -/

namespace Sys2Proof.Machine

/-- A branch of format R: to the register's byte where `taken` holds, else on by 2 (R150 to R152). -/
def branch (p : Config.Policy) (taken : Bool) (r : Byte) (s : State) : Except FaultCause State := do
  let r ← regOperand r
  if taken then pure (s.setPc (s.reg r)) else advance p 2 s

/-- JMP's handler (R150). -/
def handleJmp (p : Config.Policy) (r : Byte) (s : State) : Except FaultCause State := branch p true r s

/-- JEQ's handler (R151). -/
def handleJeq (p : Config.Policy) (r : Byte) (s : State) : Except FaultCause State := branch p s.flE r s

/-- JNE's handler (R152). -/
def handleJne (p : Config.Policy) (r : Byte) (s : State) : Except FaultCause State := branch p (!s.flE) r s

/-- JMP (R150). -/
def execJmp (r : Byte) (s : State) : Host.Outcome State Fault Refusal := commit s (handleJmp Config.hardware r s)

/-- JEQ (R151). -/
def execJeq (r : Byte) (s : State) : Host.Outcome State Fault Refusal := commit s (handleJeq Config.hardware r s)

/-- JNE (R152). -/
def execJne (r : Byte) (s : State) : Host.Outcome State Fault Refusal := commit s (handleJne Config.hardware r s)

end Sys2Proof.Machine
end

