-- ==== Sys2Proof/Machine/Loop.lean ====
section
/-! DEFINITION. HLT, the instruction of the execution loop (40_execution_loop.md R88). -/

namespace Sys2Proof.Machine

/-- HLT's handler (R88): the PC advances by 1 and the phase becomes HALTED. -/
def handleHlt (p : Config.Policy) (s : State) : Except FaultCause State := do
  let t ← advance p 1 s
  pure (t.setPhase .halted)

/-- HLT (R88). -/
def execHlt (s : State) : Host.Outcome State Fault Refusal := commit s (handleHlt Config.hardware s)

end Sys2Proof.Machine
end

