-- ==== Sys2Proof/Machine/RegisterIo.lean ====
section
/-! DEFINITION. LDI and PRN (41_register_io.md R100, R101). -/

namespace Sys2Proof.Machine

/-- LDI's handler (R100): the immediate byte is written unchanged. -/
def handleLdi (p : Config.Policy) (r imm : Byte) (s : State) : Except FaultCause State := do
  let r ← regOperand r
  advance p 3 (s.setReg r imm)

/-- PRN's handler (R101): the register's byte goes to the output trace. -/
def handlePrn (p : Config.Policy) (r : Byte) (s : State) : Except FaultCause State := do
  let r ← regOperand r
  advance p 2 (s.emit (s.reg r))

/-- LDI (R100). -/
def execLdi (r imm : Byte) (s : State) : Host.Outcome State Fault Refusal := commit s (handleLdi Config.hardware r imm s)

/-- PRN (R101). -/
def execPrn (r : Byte) (s : State) : Host.Outcome State Fault Refusal := commit s (handlePrn Config.hardware r s)

end Sys2Proof.Machine
end

