-- ==== Sys2Proof/Machine/Stack.lean ====
section
/-! DEFINITION. The stack and subroutine unit: PUSH, POP, CALL, RET (43_stack.md R130 to R137). The stack is full and
descending, in memory at SP. Statements run in order and a later read sees an earlier write (00_scope.md R11), which
decides PUSH R7, POP R7 and CALL R7. -/

namespace Sys2Proof.Machine

/-- `SP <- wrap8(SP - 1)`, then `MemWrite(SP, 1, v)`, where `v` is computed after SP has moved (R130, R133, R135). -/
def pushByte (p : Config.Policy) (v : State → Except FaultCause Byte) (s : State) : Except FaultCause State := do
  let sp ← wrap8 p.overflow ((s.sp.toNat : Int) - 1)
  let t := s.setSp sp
  let b ← v t
  pure (t.store t.sp b)

/-- `SP <- wrap8(SP + 1)`, the end of every pop (R132, R134, R135). -/
def raiseSp (p : Config.Policy) (s : State) : Except FaultCause State := do
  let sp ← wrap8 p.overflow (s.sp.toNat + 1)
  pure (s.setSp sp)

/-- PUSH's handler: R130 under `Conventional`, R131 under `SourceQuirk`, where the stored byte is the decremented one
(UNVERIFIED, unsafe for the original software, not met by this hardware: assumption log 5). -/
def handlePush (p : Config.Policy) (r : Byte) (s : State) : Except FaultCause State := do
  let r ← regOperand r
  match p.push with
  | .conventional => do
    let t ← pushByte p (fun t => pure (t.reg r)) s
    advance p 2 t
  | .sourceQuirk => do
    let v ← wrap8 p.overflow (((s.reg r).toNat : Int) - 1)
    let t := s.setReg r v
    advance p 2 (t.store t.sp (t.reg r))

/-- POP's handler (R132): the destination is written before SP is raised, so POP R7 leaves the popped byte plus 1. -/
def handlePop (p : Config.Policy) (r : Byte) (s : State) : Except FaultCause State := do
  let r ← regOperand r
  let t ← raiseSp p (s.setReg r (s.load s.sp))
  advance p 2 t

/-- CALL's handler (R133): pushes PC + 2 and jumps to the register, read after SP has moved. -/
def handleCall (p : Config.Policy) (r : Byte) (s : State) : Except FaultCause State := do
  let r ← regOperand r
  let t ← pushByte p (fun t => wrap8 p.overflow (t.pc.toNat + 2)) s
  pure (t.setPc (t.reg r))

/-- RET's handler (R134). -/
def handleRet (p : Config.Policy) (s : State) : Except FaultCause State := raiseSp p (s.setPc (s.load s.sp))

/-- PUSH (R130). -/
def execPush (r : Byte) (s : State) : Host.Outcome State Fault Refusal := commit s (handlePush Config.hardware r s)

/-- POP (R132). -/
def execPop (r : Byte) (s : State) : Host.Outcome State Fault Refusal := commit s (handlePop Config.hardware r s)

/-- CALL (R133). -/
def execCall (r : Byte) (s : State) : Host.Outcome State Fault Refusal := commit s (handleCall Config.hardware r s)

/-- RET (R134). -/
def execRet (s : State) : Host.Outcome State Fault Refusal := commit s (handleRet Config.hardware s)

end Sys2Proof.Machine
end

