-- ==== Sys2Proof/Syntax.lean ====
section
/-! DEFINITION. The instructions, one constructor per row of spec/opcode_table.json (30_encoding.md R63). An operand is
the byte that follows the opcode, as the dispatcher hands it to the handler (40_execution_loop.md R83): the handler
itself reads it as a register number or as an immediate (R84). DEDUCED, safe: assumption log 9. -/

namespace Sys2Proof

/-- The 13 instructions, in the order of R63. `r`, `a`, `b` are register operand bytes, `imm` is an immediate (R60). -/
inductive Instr where
  /-- HLT (R88) -/
  | hlt
  /-- LDI r, imm (R100) -/
  | ldi (r imm : Byte)
  /-- PRN r (R101) -/
  | prn (r : Byte)
  /-- ADD a, b (R112) -/
  | add (a b : Byte)
  /-- MUL a, b (R113) -/
  | mul (a b : Byte)
  /-- PUSH r (R130, R131) -/
  | push (r : Byte)
  /-- POP r (R132) -/
  | pop (r : Byte)
  /-- CALL r (R133) -/
  | call (r : Byte)
  /-- RET (R134) -/
  | ret
  /-- CMP a, b (R114) -/
  | cmp (a b : Byte)
  /-- JMP r (R150) -/
  | jmp (r : Byte)
  /-- JEQ r (R151) -/
  | jeq (r : Byte)
  /-- JNE r (R152) -/
  | jne (r : Byte)
deriving DecidableEq, Repr

end Sys2Proof
end

