-- ==== Sys2Proof/WellFormed.lean ====
section
/-! DEFINITION. Which instructions have only legal operands (30_encoding.md R61, R67): a register operand names one of
R0 to R7; an immediate has no illegal value. An instruction that is not well formed still decodes, and running it takes
the fault `InvalidRegister` (R67, R84). -/

namespace Sys2Proof

/-- The byte names a register (R13, R61). -/
abbrev namesRegister (b : Byte) : Bool := b.toNat < 8

/-- Every register operand names a register (R67). -/
def Instr.wellFormed : Instr → Bool
  | .hlt | .ret => true
  | .ldi r _ => namesRegister r
  | .prn r | .push r | .pop r | .call r | .jmp r | .jeq r | .jne r => namesRegister r
  | .add a b | .mul a b | .cmp a b => namesRegister a && namesRegister b

end Sys2Proof
end

