-- ==== Sys2Proof/Decode.lean ====
section
/-! DEFINITION. The opcode table, the decoder, and the encoder written from the same table (30_encoding.md R60 to R68;
40_execution_loop.md R81, R82), and the assembler text of an instruction (R69). -/

namespace Sys2Proof

/-- The four instruction formats (R60). -/
inductive Format where
  /-- no operand, 1 byte -/
  | z
  /-- one register, 2 bytes -/
  | r
  /-- two registers, 3 bytes -/
  | rr
  /-- register and immediate, 3 bytes -/
  | ri
deriving DecidableEq, Repr

/-- The names of the 13 opcodes (R63). -/
inductive Opcode where
  | hlt | ldi | prn | add | mul | push | pop | call | ret | cmp | jmp | jeq | jne
deriving DecidableEq, Repr

/-- Why the decoder refuses bytes. -/
inductive DecodeError where
  /-- The opcode byte is not in the table (R66, R82). Raised by `decode`; the step then takes the fault
  `InvalidOpcode` (R171). Safe: it is the spec's own rejection. -/
  | invalidOpcode (opcode : Byte)
  /-- The byte list ends before the instruction does. Raised by `decodeBytes` alone, never by a step, whose fetch
  always delivers three bytes (R81). Safe. -/
  | truncated
deriving DecidableEq, Repr

/-- The three bytes a step fetches: the opcode and the two bytes after it (R81). -/
structure Fetched where
  opcode : Byte
  a      : Byte
  b      : Byte
deriving DecidableEq, Repr

/-- The value of each opcode, in binary as the table gives it (R63). -/
def opcodeByte : Opcode → Byte
  | .hlt  => 0b00000001
  | .ldi  => 0b10000010
  | .prn  => 0b01000111
  | .add  => 0b10100000
  | .mul  => 0b10100010
  | .push => 0b01000101
  | .pop  => 0b01000110
  | .call => 0b01010000
  | .ret  => 0b00010001
  | .cmp  => 0b10100111
  | .jmp  => 0b01010100
  | .jeq  => 0b01010101
  | .jne  => 0b01010110

/-- The format column of the opcode table (R63). -/
def opcodeFormat : Opcode → Format
  | .hlt | .ret => .z
  | .prn | .push | .pop | .call | .jmp | .jeq | .jne => .r
  | .add | .mul | .cmp => .rr
  | .ldi => .ri

/-- The length column of R60, in bytes. -/
def formatLength : Format → Nat
  | .z  => 1
  | .r  => 2
  | .rr => 3
  | .ri => 3

/-- All rows of the opcode table, in its order (R63). -/
def opcodeTable : List Opcode :=
  [.hlt, .ldi, .prn, .add, .mul, .push, .pop, .call, .ret, .cmp, .jmp, .jeq, .jne]

/-- Look an opcode byte up by its exact 8-bit value (R65, R82). -/
def opcodeOfByte (op : Byte) : Option Opcode :=
  opcodeTable.find? fun o => opcodeByte o == op

/-- The instruction of an opcode with the two bytes after it; a byte the format does not use is dropped (R62). -/
def instrOf (o : Opcode) (a b : Byte) : Instr :=
  match o with
  | .hlt  => .hlt
  | .ldi  => .ldi a b
  | .prn  => .prn a
  | .add  => .add a b
  | .mul  => .mul a b
  | .push => .push a
  | .pop  => .pop a
  | .call => .call a
  | .ret  => .ret
  | .cmp  => .cmp a b
  | .jmp  => .jmp a
  | .jeq  => .jeq a
  | .jne  => .jne a

/-- The decoder of a step: three fetched bytes give an instruction or a refusal by name (R82, R83). -/
def decode (f : Fetched) : Except DecodeError Instr :=
  match opcodeOfByte f.opcode with
  | some o => .ok (instrOf o f.a f.b)
  | none   => .error (.invalidOpcode f.opcode)

/-- The opcode of an instruction (R63). -/
def opcodeOf : Instr → Opcode
  | .hlt     => .hlt
  | .ldi _ _ => .ldi
  | .prn _   => .prn
  | .add _ _ => .add
  | .mul _ _ => .mul
  | .push _  => .push
  | .pop _   => .pop
  | .call _  => .call
  | .ret     => .ret
  | .cmp _ _ => .cmp
  | .jmp _   => .jmp
  | .jeq _   => .jeq
  | .jne _   => .jne

/-- The operand bytes of an instruction, first to last (R60). -/
def operandBytes : Instr → List Byte
  | .hlt | .ret => []
  | .ldi r imm => [r, imm]
  | .prn r | .push r | .pop r | .call r | .jmp r | .jeq r | .jne r => [r]
  | .add a b | .mul a b | .cmp a b => [a, b]

/-- The length of an instruction in bytes, known from its opcode alone (R65). -/
def instrLength (i : Instr) : Nat := formatLength (opcodeFormat (opcodeOf i))

/-- The encoder: the opcode byte, then the operand bytes, at ascending addresses (R44, R60). -/
def encode (i : Instr) : List Byte := opcodeByte (opcodeOf i) :: operandBytes i

/-- Decode the instruction at the head of a byte stream, and give the bytes after it (R60, R65, R68). Total: a stream
that ends inside the instruction is refused as `truncated`. -/
def decodeBytes : List Byte → Except DecodeError (Instr × List Byte)
  | [] => .error .truncated
  | op :: rest =>
    match opcodeOfByte op with
    | none => .error (.invalidOpcode op)
    | some o =>
      match opcodeFormat o, rest with
      | .z, rest => .ok (instrOf o 0 0, rest)
      | .r, a :: rest => .ok (instrOf o a 0, rest)
      | .rr, a :: b :: rest => .ok (instrOf o a b, rest)
      | .ri, a :: b :: rest => .ok (instrOf o a b, rest)
      | .r, [] | .rr, [] | .ri, [] => .error .truncated
      | .rr, [_] | .ri, [_] => .error .truncated

/-- Byte `k` of an instruction written as one number: bit 0 is the lowest bit of the first byte, and the second byte is
bits 15..8. Bits from `nbits` on are 0. -/
def tableByte (nbits w k : Nat) : Byte := BitVec.ofNat 8 (w % 2 ^ nbits / 2 ^ (8 * k))

/-- The three bytes at and after the opcode for a word numbered as spec/opcode_table.json numbers it. -/
def tableFetched (nbits w : Nat) : Fetched :=
  { opcode := tableByte nbits w 0, a := tableByte nbits w 1, b := tableByte nbits w 2 }

/-- The instruction the decoder reads from an opcode-table word. -/
def decodeTableWord (nbits w : Nat) : Option Instr :=
  (decode (tableFetched nbits w)).toOption

/-- A register operand in assembler text: `R` and its number in decimal (R69). -/
def asmRegister (r : Byte) : String := "R" ++ toString r.toNat

/-- The assembler text of an instruction (R69): mnemonic, a space, operands separated by a comma in byte order. It is
assembler text of well-formed instructions only, since R69 names no register above R7. DESIGN CHOICE, safe: assumption log 15. -/
def asmText : Instr → String
  | .hlt       => "HLT"
  | .ldi r imm => "LDI " ++ asmRegister r ++ "," ++ toString imm.toNat
  | .prn r     => "PRN " ++ asmRegister r
  | .add a b   => "ADD " ++ asmRegister a ++ "," ++ asmRegister b
  | .mul a b   => "MUL " ++ asmRegister a ++ "," ++ asmRegister b
  | .push r    => "PUSH " ++ asmRegister r
  | .pop r     => "POP " ++ asmRegister r
  | .call r    => "CALL " ++ asmRegister r
  | .ret       => "RET"
  | .cmp a b   => "CMP " ++ asmRegister a ++ "," ++ asmRegister b
  | .jmp r     => "JMP " ++ asmRegister r
  | .jeq r     => "JEQ " ++ asmRegister r
  | .jne r     => "JNE " ++ asmRegister r

end Sys2Proof
end

