-- ==== Sys2Proof/Machine/Fetch.lean ====
section
/-! DEFINITION. Fetch, and the step around an instruction's meaning (40_execution_loop.md R80 to R86). -/

namespace Sys2Proof.Machine

/-- Fetch (R81): the opcode byte at PC and the two bytes after it, always; their addresses are formed with `wrap8`. -/
def fetch (p : Config.Policy) (s : State) : Except FaultCause Fetched := do
  let a1 ← wrap8 p.overflow (s.pc.toNat + 1)
  let a2 ← wrap8 p.overflow (s.pc.toNat + 2)
  pure { opcode := s.load s.pc, a := s.load a1, b := s.load a2 }

/-- Store an instruction's three bytes at PC and the two addresses after it, modulo 256, where `fetch` reads them. -/
def storeFetched (s : State) (f : Fetched) : State :=
  ((s.store s.pc f.opcode).store (s.pc + 1) f.a).store (s.pc + 2) f.b

/-- The fault a decoder's refusal raises (R82). A fetch always delivers three bytes, so `truncated` never arises here.
DESIGN CHOICE, safe: assumption log 16. -/
def decodeFault : DecodeError → FaultCause
  | .invalidOpcode _ | .truncated => .invalidOpcode

/-- Why a state of each phase but RUNNING has no step (R80). -/
def noStep : Phase → Option Fault
  | .load    => some .notStarted
  | .running => none
  | .halted  => some .halted
  | .faulted => some .faulted

/-- The step (R85) with the instruction's meaning `run` given: only in RUNNING; fetch, then decode, then run. A fault
of the fetch or of the decoder is taken on the state before the step (R86, R176). -/
def stepBy (p : Config.Policy) (run : Instr → State → Host.Outcome State Fault Refusal) (s : State) :
    Host.Outcome State Fault Refusal :=
  match noStep s.phase with
  | some why => .fault why
  | none =>
    match fetch p s with
    | .error cause => .next (takeFault cause s)
    | .ok f =>
      match decode f with
      | .error e => .next (takeFault (decodeFault e) s)
      | .ok i => run i s

end Sys2Proof.Machine
end

