-- ==== Sys2Proof/Machine/Step.lean ====
section
/-! DEFINITION. One step of this hardware (40_execution_loop.md R85), and placing a word where the next step runs it. -/

namespace Sys2Proof.Machine

/-- One step (R85), at this hardware's policy. -/
def step (s : State) : Host.Outcome State Fault Refusal := stepBy Config.hardware exec s

/-- `s` with an opcode-table word's instruction at PC and the phase RUNNING, as after the host's load and `run`
(70_reset_and_hazards.md R194, R195; DESIGN CHOICE, safe: assumption log 3). -/
def State.withFetchWord (s : State) (nbits w : Nat) : State :=
  (storeFetched s (tableFetched nbits w)).setPhase .running

end Sys2Proof.Machine
end

