-- ==== Sys2Proof/Machine/HostPort.lean ====
section
/-! DEFINITION. The host's five interactions with the core (70_reset_and_hazards.md R193 to R196; 60_exceptions.md R183,
R184, R187). They happen between steps; no step performs one. A move the host does not have is refused by name. DEDUCED: assumption log 10 (unsafe if a host
wrote while the core runs, against R196). -/

namespace Sys2Proof.Machine

/-- Write the bytes of an image to ascending addresses from number `i` on. -/
def loadBytes : Nat → List Byte → Memory → Memory
  | _, [], m => m
  | i, v :: image, m => loadBytes (i + 1) image (m.write (BitVec.ofNat 8 i) v)

/-- Load (R194): in LOAD, byte `i` of the image goes to address `i`; an image longer than memory is refused. A second
load in LOAD is allowed, and cells past its image keep what the first put there. DESIGN CHOICE, safe but for claims about
that load: assumption log 13. -/
def hostLoad (image : List Byte) (s : State) : Host.Outcome State Fault Refusal :=
  if s.phase ≠ .load then .refused .loadOutsideLoadPhase
  else if image.length ≤ Config.memSize then .next { s with mem := loadBytes 0 image s.mem }
  else .refused .imageTooLong

/-- Run (R195): LOAD becomes RUNNING; in any other phase it is refused. -/
def hostRun (s : State) : Host.Outcome State Fault Refusal :=
  if s.phase = .load then .next (s.setPhase .running) else .refused .runOutsideLoadPhase

/-- The running flag (10_state.md R30): false in HALTED alone. -/
def runningFlag (s : State) : Bool := s.phase != .halted

/-- What the status port shows (R187). -/
structure Status where
  phase  : Phase
  record : Option FaultRecord
deriving DecidableEq, Repr

/-- The status port (R187): the phase, and in FAULTED the fault record. DEDUCED, safe: assumption log 14. -/
def hostStatus (s : State) : Status :=
  { phase := s.phase, record := if s.phase = .faulted then s.faultRecord else none }

/-- What the debug snapshot port shows (R183). -/
structure Snapshot where
  pc    : Byte
  bytes : Vector Byte 3
  regs  : Vector Byte 8
deriving DecidableEq, Repr

/-- The debug snapshot port (R183): PC, the three bytes at PC modulo 256 under either policy, and R0 to R7. -/
def hostSnapshot (s : State) : Snapshot :=
  { pc := s.pc, bytes := #v[s.load s.pc, s.load (s.pc + 1), s.load (s.pc + 2)], regs := s.regs }

/-- The output port (R184): the bytes emitted so far, oldest first. -/
def hostOutput (s : State) : List Byte := s.output

end Sys2Proof.Machine
end

