-- ==== Sys2Proof/Machine/Parametric.lean ====
section
/-! DEFINITION. The same core under any policy (00_scope.md R8): what the spec says of `OVERFLOW_POLICY = Fault` and of
`PUSH_POLICY = SourceQuirk` is said of these. At `Config.hardware` they are `exec` and `step`. -/

namespace Sys2Proof.Machine

/-- The handler of an instruction under a policy (40_execution_loop.md R83). -/
def handle (p : Config.Policy) (i : Instr) (s : State) : Except FaultCause State :=
  match i with
  | .hlt       => handleHlt p s
  | .ldi r imm => handleLdi p r imm s
  | .prn r     => handlePrn p r s
  | .add a b   => handleAdd p a b s
  | .mul a b   => handleMul p a b s
  | .push r    => handlePush p r s
  | .pop r     => handlePop p r s
  | .call r    => handleCall p r s
  | .ret       => handleRet p s
  | .cmp a b   => handleCmp p a b s
  | .jmp r     => handleJmp p r s
  | .jeq r     => handleJeq p r s
  | .jne r     => handleJne p r s

/-- `exec` under a policy. -/
def execUnder (p : Config.Policy) (i : Instr) (s : State) : Host.Outcome State Fault Refusal :=
  commit s (handle p i s)

/-- `step` under a policy. -/
def stepUnder (p : Config.Policy) (s : State) : Host.Outcome State Fault Refusal := stepBy p (execUnder p) s

end Sys2Proof.Machine
end

