-- ==== Sys2Proof/Safety.lean ====
section
/-! DEFINITION. The ends of a run (40_execution_loop.md R89), the states a run can reach, the machine's invariant, and the
relations between states that the claims speak of. -/

namespace Sys2Proof.Machine

/-- A run has ended: HALTED or FAULTED (R89). -/
def isEnd (s : State) : Bool := s.phase == .halted || s.phase == .faulted

/-- A normal end (R89). -/
def normalEnd (s : State) : Bool := s.phase == .halted

/-- An abnormal end (R89). -/
def abnormalEnd (s : State) : Bool := s.phase == .faulted

/-- The states the core and its host can bring about: reset, the host's load and run, and steps (R191, R193, R87).
More than one load before run is allowed. DESIGN CHOICE, safe: assumption log 13. -/
inductive Reachable : State → Prop where
  | reset : Reachable State.reset
  | load {image : List Byte} {s t : State} : Reachable s → hostLoad image s = .next t → Reachable t
  | run {s t : State} : Reachable s → hostRun s = .next t → Reachable t
  | step {s t : State} : Reachable s → Machine.step s = .next t → Reachable t

/-- FL holds one of the values the spec gives it: none set, or exactly one of E, G, L (R26, R27). -/
def legalFlags (fl : Byte) : Prop := fl = 0 ∨ fl = flagE ∨ fl = flagG ∨ fl = flagL

/-- The fault record describes the instruction at PC: its PC and opcode are the current ones, and its cause is an
opcode outside the table, or one in the table followed by an operand byte of 8 or more (R31, R170, R172). -/
structure RecordFits (s : State) (r : FaultRecord) : Prop where
  pc     : r.pc = s.pc
  opcode : r.opcode = s.load s.pc
  cause  : (r.cause = .invalidOpcode ∧ opcodeOfByte r.opcode = none) ∨
           (opcodeOfByte r.opcode ≠ none ∧ ∃ b : Byte, 8 ≤ b.toNat ∧ r.cause = .invalidRegister b ∧
             (b = s.load (s.pc + 1) ∨ b = s.load (s.pc + 2)))

/-- The machine's invariant: memory is canonical, FL is legal, there is a fault record in FAULTED and nowhere else and it
fits, and in LOAD nothing but memory differs from reset (R26, R27, R29, R31, R193). -/
structure Inv (s : State) : Prop where
  memory   : s.mem.wf = true
  flags    : legalFlags s.fl
  recorded : s.phase = .faulted ↔ s.faultRecord ≠ none
  fits     : ∀ r, s.faultRecord = some r → RecordFits s r
  loading  : s.phase = .load → s = { State.reset with mem := s.mem }

/-- `op` is the opcode byte of the instruction `i`, made of the two bytes after it, and `len` its length (R60, R63). -/
def encodedAs (op : Byte) (len : Nat) (i : Byte → Byte → Instr) : Prop :=
  ∀ a b, decode { opcode := op, a := a, b := b } = .ok (i a b) ∧ instrLength (i a b) = len

/-- From every state the instruction raises `InvalidRegister` for the byte `b`, and the fault is taken (R13, R172). -/
def raisesInvalidRegister (i : Instr) (b : Byte) : Prop :=
  ∀ s, exec i s = .next (takeFault (.invalidRegister b) s)

/-- The 13 opcode bytes, as decode's rule lists them (R82). -/
def opcodeBytes : List Byte :=
  [0x01, 0x82, 0x47, 0xA0, 0xA2, 0x45, 0x46, 0x50, 0x11, 0xA7, 0x54, 0x55, 0x56]

/-- The two states agree on everything but the FL bits G and L, which no instruction reads (R28). -/
def sameButGL (s t : State) : Prop := s.flE = t.flE ∧ s = { t with fl := s.fl }

end Sys2Proof.Machine
end

