-- ==== Sys2Proof/Certificates/Slice0/Obligations.lean ====
section
/-! DEFINITION. The statements for the provers. Each docstring names the rule of spec/ it formalises. A sum, difference
or product of bytes below is that of `BitVec 8`, so it is taken modulo 256: that is `wrap8` under `Wrap`, this hardware's
policy (00_scope.md R8, R12; the spec's decisions D1, D2). `takeFault` is spelled out by `TakenFaultRecordsAndStops`. -/

open Sys2Proof Sys2Proof.Machine

/-! ### Decoding and the step -/

/-- The spec's own example words decode to what they stand for (30_encoding.md R63; the examples of R88 to R152). -/
def Obligations.SpecWordsDecode : Prop :=
  decode ⟨0b00000001, 0xFF, 0xFF⟩ = .ok .hlt ∧
  decode ⟨0b10000010, 0x00, 0x08⟩ = .ok (.ldi 0 8) ∧
  decode ⟨0b01000111, 0x00, 0xFF⟩ = .ok (.prn 0) ∧
  decode ⟨0b10100000, 0x00, 0x01⟩ = .ok (.add 0 1) ∧
  decode ⟨0b10100111, 0x00, 0x01⟩ = .ok (.cmp 0 1) ∧
  decode ⟨0b01010000, 0x01, 0x00⟩ = .ok (.call 1) ∧
  decode ⟨0b01010110, 0x03, 0x00⟩ = .ok (.jne 3) ∧
  decode ⟨0b00000000, 0x00, 0x00⟩ = .error (.invalidOpcode 0) ∧
  decode ⟨0b10100001, 0x00, 0x00⟩ = .error (.invalidOpcode 0xA1)

/-- Decoding a byte stream and encoding are inverse, for every instruction, every operand value and every continuation:
no bit of an encoding is dropped and no bytes have two meanings (30_encoding.md R60, R61, R65, R68). -/
def Obligations.DecodeInvertsEncode : Prop :=
  ∀ (bytes : List Byte) (i : Instr) (rest : List Byte),
    decodeBytes bytes = .ok (i, rest) ↔ bytes = encode i ++ rest

/-- A step runs the instruction its three fetched bytes decode to, with nothing added around it
(40_execution_loop.md R81, R83, R85). -/
def Obligations.StepRunsDecodedInstruction : Prop :=
  ∀ (s : State) (i : Instr), s.phase = .running →
    decode ⟨s.load s.pc, s.load (s.pc + 1), s.load (s.pc + 2)⟩ = .ok i → step s = exec i s

/-- A step runs the instruction whose encoding stands at PC, whatever the bytes after it hold: a byte the format does
not use is never checked (30_encoding.md R60, R62; 20_memory.md R44, R45). -/
def Obligations.StepRunsEncodedInstruction : Prop :=
  ∀ (s : State) (i : Instr), s.phase = .running →
    (∀ (k : Nat) (h : k < (encode i).length), s.load (s.pc + BitVec.ofNat 8 k) = (encode i)[k]) → step s = exec i s

/-- Fetch (40_execution_loop.md R81): the bytes at PC, PC + 1 and PC + 2 modulo 256 (at PC 254 the last is address 0; at
PC 255 they are 0 and 1); under `OVERFLOW_POLICY = Fault` the same up to PC 253, and at PC 254 or 255 the step raises
`Overflow` before decode, whatever the opcode (the spec's decision D2). -/
def Obligations.FetchReadsThreeBytes : Prop :=
  (∀ s : State, fetch Config.hardware s = .ok ⟨s.load s.pc, s.load (s.pc + 1), s.load (s.pc + 2)⟩) ∧
  (∀ s : State, s.pc = 254 → fetch Config.hardware s = .ok ⟨s.load 254, s.load 255, s.load 0⟩) ∧
  (∀ s : State, s.pc = 255 → fetch Config.hardware s = .ok ⟨s.load 255, s.load 0, s.load 1⟩) ∧
  (∀ (q : Config.PushPolicy) (s : State), s.pc.toNat ≤ 253 →
    fetch ⟨.fault, q⟩ s = .ok ⟨s.load s.pc, s.load (s.pc + 1), s.load (s.pc + 2)⟩) ∧
  (∀ (q : Config.PushPolicy) (s : State), s.phase = .running → 254 ≤ s.pc.toNat →
    stepUnder ⟨.fault, q⟩ s = .next (takeFault (.overflow 256) s))

/-- Every byte outside the table faults with `InvalidOpcode` before any handler runs: 243 of the 256 byte values, 0x00
among them; a zero-filled memory faults at PC 0 with opcode 0x00 (60_exceptions.md R171; 30_encoding.md R66). -/
def Obligations.IllegalOpcodeFaults : Prop :=
  (∀ s : State, s.phase = .running → s.load s.pc ∉ opcodeBytes →
    step s = .next { s with
      phase := .faulted, faultRecord := some { cause := .invalidOpcode, pc := s.pc, opcode := s.load s.pc } }) ∧
  ((List.range 256).filter fun n => decide (BitVec.ofNat 8 n ∉ opcodeBytes)).length = 243 ∧
  (0x00 : Byte) ∉ opcodeBytes ∧
  (∀ s : State, s.phase = .running → s.pc = 0 → (∀ a, s.load a = 0) →
    step s = .next { s with
      phase := .faulted, faultRecord := some { cause := .invalidOpcode, pc := 0, opcode := 0x00 } })

/-- There is a step exactly in RUNNING, and it always answers a next state; in LOAD, HALTED and FAULTED there is none
(40_execution_loop.md R80, R87). That a missing step is the outcome `fault` is the model's form (assumption log 1). -/
def Obligations.StepExistsExactlyWhenRunning : Prop :=
  ∀ s : State,
    ((∃ t, step s = .next t) ↔ s.phase = .running) ∧
    (s.phase = .load → step s = .fault .notStarted) ∧
    (s.phase = .halted → step s = .fault .halted) ∧
    (s.phase = .faulted → step s = .fault .faulted)

/-- What a step does to the phase: it stays RUNNING, becomes HALTED exactly by HLT, which alone clears the running flag,
or becomes FAULTED (10_state.md R29, R30; 40_execution_loop.md R87, R88). -/
def Obligations.PhaseLeavesRunningOnlyByHaltOrFault : Prop :=
  ∀ s t : State, step s = .next t →
    (t.phase = .running ∨ t.phase = .halted ∨ t.phase = .faulted) ∧
    (t.phase = .halted ↔ s.load s.pc = 0x01) ∧
    (runningFlag t = false ↔ s.load s.pc = 0x01)

/-- The end of a run (40_execution_loop.md R89): a state with a step is no end; a step brings a normal end exactly by HLT;
an abnormal end shows its fault record at the status port; a state that is not LOAD is an end exactly if it has no
step. -/
def Obligations.RunEndsByHaltOrFault : Prop :=
  (∀ s t : State, step s = .next t →
    isEnd s = false ∧ (normalEnd t = true ↔ s.load s.pc = 0x01) ∧
    (abnormalEnd t = true → (hostStatus t).record ≠ none) ∧
    (isEnd t = true ↔ normalEnd t = true ∨ abnormalEnd t = true)) ∧
  (∀ s : State, s.phase ≠ .load → (isEnd s = true ↔ ¬ ∃ t, step s = .next t))

/-! ### Faults -/

/-- Taking a fault (60_exceptions.md R172, the spec's decision D8): a step that ends FAULTED changed nothing but the
phase and the fault record, which holds the cause, the PC and the opcode at PC; the core takes no further step; the host
sees the phase and the record. -/
def Obligations.TakenFaultRecordsAndStops : Prop :=
  ∀ s t : State, step s = .next t → t.phase = .faulted →
    ∃ c : FaultCause,
      t = { s with phase := .faulted, faultRecord := some { cause := c, pc := s.pc, opcode := s.load s.pc } } ∧
      step t = .fault .faulted ∧
      hostStatus t = { phase := .faulted, record := some { cause := c, pc := s.pc, opcode := s.load s.pc } }

/-- A step is atomic and precise under every policy: one that raises leaves registers, FL, memory, output and PC as
before, even where a handler raises after its first write (40_execution_loop.md R86). -/
def Obligations.RaisingStepUndoesItsWrites : Prop :=
  ∀ (p : Config.Policy) (s t : State), stepUnder p s = .next t → t.phase = .faulted →
    t.regs = s.regs ∧ t.fl = s.fl ∧ t.mem = s.mem ∧ t.output = s.output ∧ t.pc = s.pc

/-- Under `Wrap` a step raises only `InvalidOpcode`, for a byte outside the table, or `InvalidRegister`, for a byte of 8
or more: never `Overflow`, and never `UnsupportedALUOperation` (60_exceptions.md R170, R174, R175). -/
def Obligations.OnlyTwoFaultKindsUnderWrap : Prop :=
  ∀ (q : Config.PushPolicy) (s t : State), stepUnder ⟨.wrap, q⟩ s = .next t → t.phase = .faulted →
    (t = takeFault .invalidOpcode s ∧ s.load s.pc ∉ opcodeBytes) ∨
    (∃ b : Byte, t = takeFault (.invalidRegister b) s ∧ 8 ≤ b.toNat ∧ s.load s.pc ∈ opcodeBytes ∧
      (b = s.load (s.pc + 1) ∨ b = s.load (s.pc + 2)))

/-- Priority (60_exceptions.md R176, the spec's decision D9), under every policy: the overflow of a fetch address first
(under `Fault` only), then `InvalidOpcode`, then `InvalidRegister` for byte 1, then for byte 2, then an overflow the
handler computes. -/
def Obligations.FirstFaultInOrderIsTaken : Prop :=
  ∀ (p : Config.Policy) (s : State), s.phase = .running →
    (p.overflow = .fault → 254 ≤ s.pc.toNat → stepUnder p s = .next (takeFault (.overflow 256) s)) ∧
    (p.overflow = .wrap ∨ s.pc.toNat ≤ 253 →
      (opcodeOfByte (s.load s.pc) = none → stepUnder p s = .next (takeFault .invalidOpcode s)) ∧
      (∀ o, opcodeOfByte (s.load s.pc) = some o →
        (opcodeFormat o ≠ .z → 8 ≤ (s.load (s.pc + 1)).toNat →
          stepUnder p s = .next (takeFault (.invalidRegister (s.load (s.pc + 1))) s)) ∧
        (opcodeFormat o = .rr → (s.load (s.pc + 1)).toNat < 8 → 8 ≤ (s.load (s.pc + 2)).toNat →
          stepUnder p s = .next (takeFault (.invalidRegister (s.load (s.pc + 2))) s)) ∧
        ((instrOf o (s.load (s.pc + 1)) (s.load (s.pc + 2))).wellFormed = true →
          ∀ t, stepUnder p s = .next t → t.phase = .faulted →
            p.overflow = .fault ∧ ∃ v : Int, (v < 0 ∨ 255 < v) ∧ t = takeFault (.overflow v) s)))

/-- A legal opcode with a register operand of 8 or more raises `InvalidRegister` with that byte; LDI's immediate has no
illegal value, and an instruction without such an operand raises nothing (30_encoding.md R67, the spec's decision D5;
that an unused byte is never checked is `StepRunsEncodedInstruction`). -/
def Obligations.InstructionRaisesExactlyOnBadRegister : Prop :=
  ∀ (i : Instr) (s : State),
    (i.wellFormed = false → ∃ b ∈ operandBytes i, 8 ≤ b.toNat ∧ exec i s = .next (takeFault (.invalidRegister b) s)) ∧
    (i.wellFormed = true → ∃ t, exec i s = .next t ∧ t.faultRecord = s.faultRecord ∧
      t.phase = if i = .hlt then .halted else s.phase)

/-- The conservative policy refines this hardware's: where a step under `Fault` does not raise `Overflow`, the step
under `Wrap` gives the same state, other faults included (00_scope.md R8, R12; 60_exceptions.md R175). -/
def Obligations.FaultPolicyRefinesWrap : Prop :=
  ∀ (q : Config.PushPolicy) (s t : State), stepUnder ⟨.fault, q⟩ s = .next t →
    (∀ v, t ≠ takeFault (.overflow v) s) → stepUnder ⟨.wrap, q⟩ s = .next t

/-- Under `Fault` the PC advance of a 3-byte instruction at PC 253 raises `Overflow`, by `wrap8(PC + 3)` of R12 and of the
pseudocode of R100 and R114; the derived remarks of R100 and R175 that it cannot overflow do not hold there (assumption
log 7). This hardware runs with `Wrap` and is not affected. -/
def Obligations.FaultPolicyAdvanceOverflowsAt253 : Prop :=
  ∀ (q : Config.PushPolicy) (s : State), s.pc = 253 →
    (∀ (r : RegIdx) (imm : Byte),
      execUnder ⟨.fault, q⟩ (.ldi (regByte r) imm) s = .next (takeFault (.overflow 256) s)) ∧
    (∀ a b : RegIdx,
      execUnder ⟨.fault, q⟩ (.cmp (regByte a) (regByte b)) s = .next (takeFault (.overflow 256) s))

/-! ### The instructions -/

/-- HLT (40_execution_loop.md R88). -/
def Obligations.HltStopsTheLoop : Prop :=
  encodedAs 0b00000001 1 (fun _ _ => .hlt) ∧
  (∀ s : State, exec .hlt s = .next { s with pc := s.pc + 1, phase := .halted }) ∧
  (∀ s t : State, exec .hlt s = .next t → step t = .fault .halted) ∧
  (∀ s t : State, step s = .next t → t.phase = .halted → s.load s.pc = 0b00000001) ∧
  (∀ (q : Config.PushPolicy) (s : State), s.phase = .running → 254 ≤ s.pc.toNat →
    stepUnder ⟨.fault, q⟩ s = .next (takeFault (.overflow 256) s))

/-- LDI (41_register_io.md R100), with the source's property that LDI then PRN emits the immediate. The rule's derived
remark on PC + 3 under `Fault` is no part of it: see `FaultPolicyAdvanceOverflowsAt253`. -/
def Obligations.LdiLoadsImmediate : Prop :=
  encodedAs 0b10000010 3 .ldi ∧
  (∀ (r : RegIdx) (imm : Byte) (s : State),
    exec (.ldi (regByte r) imm) s = .next { s with regs := s.regs.set r imm, pc := s.pc + 3 }) ∧
  (∀ r imm : Byte, 8 ≤ r.toNat → raisesInvalidRegister (.ldi r imm) r) ∧
  (∀ (q : Config.PushPolicy) (s : State), s.phase = .running → 254 ≤ s.pc.toNat →
    stepUnder ⟨.fault, q⟩ s = .next (takeFault (.overflow 256) s)) ∧
  (∀ (r : RegIdx) (v : Byte) (s t u : State), exec (.ldi (regByte r) v) s = .next t →
    exec (.prn (regByte r)) t = .next u → u.output = s.output ++ [v])

/-- PRN (41_register_io.md R101): the register's byte is appended to the output trace; its decimal text is the host's. -/
def Obligations.PrnEmitsRegister : Prop :=
  encodedAs 0b01000111 2 (fun a _ => .prn a) ∧
  (∀ (r : RegIdx) (s : State),
    exec (.prn (regByte r)) s = .next { s with output := s.output ++ [s.reg r], pc := s.pc + 2 }) ∧
  (∀ r : Byte, 8 ≤ r.toNat → raisesInvalidRegister (.prn r) r)

/-- ADD (42_alu.md R112). -/
def Obligations.AddWritesSum : Prop :=
  encodedAs 0b10100000 3 .add ∧
  (∀ (a b : RegIdx) (s : State),
    exec (.add (regByte a) (regByte b)) s =
      .next { s with regs := s.regs.set a (s.reg a + s.reg b), pc := s.pc + 3 }) ∧
  (∀ a b : Byte, 8 ≤ a.toNat → raisesInvalidRegister (.add a b) a) ∧
  (∀ (a : RegIdx) (b : Byte), 8 ≤ b.toNat → raisesInvalidRegister (.add (regByte a) b) b) ∧
  (∀ (q : Config.PushPolicy) (a b : RegIdx) (s : State), 255 < (s.reg a).toNat + (s.reg b).toNat →
    execUnder ⟨.fault, q⟩ (.add (regByte a) (regByte b)) s =
      .next (takeFault (.overflow ((s.reg a).toNat + (s.reg b).toNat)) s))

/-- MUL (42_alu.md R113): the low byte of the product. -/
def Obligations.MulWritesProduct : Prop :=
  encodedAs 0b10100010 3 .mul ∧
  (∀ (a b : RegIdx) (s : State),
    exec (.mul (regByte a) (regByte b)) s =
      .next { s with
        regs := s.regs.set a (BitVec.ofNat 8 ((s.reg a).toNat * (s.reg b).toNat % 256)), pc := s.pc + 3 }) ∧
  (∀ a b : Byte, 8 ≤ a.toNat → raisesInvalidRegister (.mul a b) a) ∧
  (∀ (a : RegIdx) (b : Byte), 8 ≤ b.toNat → raisesInvalidRegister (.mul (regByte a) b) b) ∧
  (∀ (q : Config.PushPolicy) (a b : RegIdx) (s : State), 255 < (s.reg a).toNat * (s.reg b).toNat →
    execUnder ⟨.fault, q⟩ (.mul (regByte a) (regByte b)) s =
      .next (takeFault (.overflow ((s.reg a).toNat * (s.reg b).toNat)) s))

/-- CMP (42_alu.md R114): unsigned; all of FL is written, whatever it held; it computes nothing that can overflow, so
that under `Fault` it does the same wherever its PC advance is in range. -/
def Obligations.CmpSetsExactlyOneFlag : Prop :=
  encodedAs 0b10100111 3 .cmp ∧
  (∀ (a b : RegIdx) (s : State),
    exec (.cmp (regByte a) (regByte b)) s =
      .next { s with
        fl := if s.reg a = s.reg b then 0b00000001
              else if (s.reg a).toNat < (s.reg b).toNat then 0b00000100 else 0b00000010
        pc := s.pc + 3 }) ∧
  (∀ a b : Byte, 8 ≤ a.toNat → raisesInvalidRegister (.cmp a b) a) ∧
  (∀ (a : RegIdx) (b : Byte), 8 ≤ b.toNat → raisesInvalidRegister (.cmp (regByte a) b) b) ∧
  (∀ (q : Config.PushPolicy) (a b : RegIdx) (s : State), s.pc.toNat ≤ 252 →
    execUnder ⟨.fault, q⟩ (.cmp (regByte a) (regByte b)) s = exec (.cmp (regByte a) (regByte b)) s)

/-- PUSH (43_stack.md R130), with the source's property that PUSH r then POP r2 transfers the value and restores SP
(for r2 other than R7, 90_conflicts.md C8). PUSH R7 stores the decremented SP (the spec's decision D4). -/
def Obligations.PushStoresBelowStackPointer : Prop :=
  encodedAs 0b01000101 2 (fun a _ => .push a) ∧
  (∀ (r : RegIdx) (s : State),
    exec (.push (regByte r)) s =
      .next { s with
        regs := s.regs.set 7 (s.reg 7 - 1)
        mem := s.mem.write (s.reg 7 - 1) (if r = 7 then s.reg 7 - 1 else s.reg r)
        pc := s.pc + 2 }) ∧
  (∀ r : Byte, 8 ≤ r.toNat → raisesInvalidRegister (.push r) r) ∧
  (∀ (r : RegIdx) (s : State), s.reg 7 = 0 →
    execUnder ⟨.fault, .conventional⟩ (.push (regByte r)) s = .next (takeFault (.overflow (-1)) s)) ∧
  (∀ (r r2 : RegIdx) (s t u : State), r2 ≠ 7 → exec (.push (regByte r)) s = .next t →
    exec (.pop (regByte r2)) t = .next u →
    u.reg r2 = (if r = 7 then s.reg 7 - 1 else s.reg r) ∧ u.reg 7 = s.reg 7)

/-- PUSH under `PUSH_POLICY = SourceQuirk`, which is not this hardware's (43_stack.md R131). That the stored byte is the
decremented one is the spec's own reading of a point its source leaves unsettled (assumption log 5). -/
def Obligations.SourceQuirkPushDecrementsOperand : Prop :=
  (∀ (r : RegIdx) (s : State),
    execUnder ⟨.wrap, .sourceQuirk⟩ (.push (regByte r)) s =
      .next { s with
        regs := s.regs.set r (s.reg r - 1)
        mem := s.mem.write (if r = 7 then s.reg 7 - 1 else s.reg 7) (s.reg r - 1)
        pc := s.pc + 2 }) ∧
  (∀ s : State, execUnder ⟨.wrap, .sourceQuirk⟩ (.push (regByte 7)) s = exec (.push (regByte 7)) s) ∧
  (∀ (r : Byte) (s : State), 8 ≤ r.toNat →
    execUnder ⟨.wrap, .sourceQuirk⟩ (.push r) s = .next (takeFault (.invalidRegister r) s)) ∧
  (∀ (r : RegIdx) (s : State), s.reg r = 0 →
    execUnder ⟨.fault, .sourceQuirk⟩ (.push (regByte r)) s = .next (takeFault (.overflow (-1)) s))

/-- POP (43_stack.md R132): the cell keeps its byte; POP R7 leaves the popped byte plus 1 in SP (D4). -/
def Obligations.PopLoadsFromStackPointer : Prop :=
  encodedAs 0b01000110 2 (fun a _ => .pop a) ∧
  (∀ (r : RegIdx) (s : State), r ≠ 7 →
    exec (.pop (regByte r)) s =
      .next { s with regs := (s.regs.set r (s.load (s.reg 7))).set 7 (s.reg 7 + 1), pc := s.pc + 2 }) ∧
  (∀ s : State,
    exec (.pop (regByte 7)) s =
      .next { s with regs := s.regs.set 7 (s.load (s.reg 7) + 1), pc := s.pc + 2 }) ∧
  (∀ r : Byte, 8 ≤ r.toNat → raisesInvalidRegister (.pop r) r) ∧
  (∀ (q : Config.PushPolicy) (r : RegIdx) (s : State), (if r = 7 then s.load (s.reg 7) else s.reg 7) = 255 →
    execUnder ⟨.fault, q⟩ (.pop (regByte r)) s = .next (takeFault (.overflow 256) s))

/-- CALL (43_stack.md R133): the return address is PC + 2 modulo 256; CALL R7 jumps to the decremented SP (D4). -/
def Obligations.CallPushesReturnAddress : Prop :=
  encodedAs 0b01010000 2 (fun a _ => .call a) ∧
  (∀ (r : RegIdx) (s : State),
    exec (.call (regByte r)) s =
      .next { s with
        regs := s.regs.set 7 (s.reg 7 - 1)
        mem := s.mem.write (s.reg 7 - 1) (s.pc + 2)
        pc := if r = 7 then s.reg 7 - 1 else s.reg r }) ∧
  (∀ r : Byte, 8 ≤ r.toNat → raisesInvalidRegister (.call r) r) ∧
  (∀ (q : Config.PushPolicy) (r : RegIdx) (s : State), s.reg 7 = 0 →
    execUnder ⟨.fault, q⟩ (.call (regByte r)) s = .next (takeFault (.overflow (-1)) s)) ∧
  (∀ (q : Config.PushPolicy) (r : RegIdx) (s : State), s.reg 7 ≠ 0 → s.pc.toNat ≤ 253 →
    execUnder ⟨.fault, q⟩ (.call (regByte r)) s = exec (.call (regByte r)) s)

/-- RET (43_stack.md R134), with the source's property that CALL then RET returns PC to the instruction after the CALL;
the registers, SP among them, are then as before the CALL. -/
def Obligations.RetPopsReturnAddress : Prop :=
  encodedAs 0b00010001 1 (fun _ _ => .ret) ∧
  (∀ s : State,
    exec .ret s = .next { s with pc := s.load (s.reg 7), regs := s.regs.set 7 (s.reg 7 + 1) }) ∧
  (∀ (q : Config.PushPolicy) (s : State), s.reg 7 = 255 →
    execUnder ⟨.fault, q⟩ .ret s = .next (takeFault (.overflow 256) s)) ∧
  (∀ (q : Config.PushPolicy) (s : State), s.reg 7 ≠ 255 → execUnder ⟨.fault, q⟩ .ret s = exec .ret s) ∧
  (∀ (r : RegIdx) (s t u : State), exec (.call (regByte r)) s = .next t → exec .ret t = .next u →
    u.pc = s.pc + 2 ∧ u.regs = s.regs)

/-- JMP (44_branch.md R150). -/
def Obligations.JmpSetsPc : Prop :=
  encodedAs 0b01010100 2 (fun a _ => .jmp a) ∧
  (∀ (r : RegIdx) (s : State), exec (.jmp (regByte r)) s = .next { s with pc := s.reg r }) ∧
  (∀ r : Byte, 8 ≤ r.toNat → raisesInvalidRegister (.jmp r) r) ∧
  (∀ (r : RegIdx) (s : State), s.reg r = s.pc → exec (.jmp (regByte r)) s = .next s)

/-- JEQ (44_branch.md R151): FL.E is bit 0; the register is checked whether or not the branch is taken. -/
def Obligations.JeqJumpsWhenEqual : Prop :=
  encodedAs 0b01010101 2 (fun a _ => .jeq a) ∧
  (∀ (r : RegIdx) (s : State), s.fl.getLsbD 0 = true → exec (.jeq (regByte r)) s = .next { s with pc := s.reg r }) ∧
  (∀ (r : RegIdx) (s : State), s.fl.getLsbD 0 = false → exec (.jeq (regByte r)) s = .next { s with pc := s.pc + 2 }) ∧
  (∀ r : Byte, 8 ≤ r.toNat → raisesInvalidRegister (.jeq r) r)

/-- JNE (44_branch.md R152): as JEQ with the condition reversed; JNE cannot tell G from L. -/
def Obligations.JneJumpsWhenNotEqual : Prop :=
  encodedAs 0b01010110 2 (fun a _ => .jne a) ∧
  (∀ (r : RegIdx) (s : State), s.fl.getLsbD 0 = false → exec (.jne (regByte r)) s = .next { s with pc := s.reg r }) ∧
  (∀ (r : RegIdx) (s : State), s.fl.getLsbD 0 = true → exec (.jne (regByte r)) s = .next { s with pc := s.pc + 2 }) ∧
  (∀ r : Byte, 8 ≤ r.toNat → raisesInvalidRegister (.jne r) r)

/-- The ALU (42_alu.md R110), under every policy: ADD and MUL change `reg[a]` alone, CMP changes FL alone, any other tag
raises `UnsupportedALUOperation`, and no step of the machine raises that. -/
def Obligations.AluChangesOneRegisterOrFlags : Prop :=
  (∀ (p : Config.Policy) (tag : AluTag) (a b : RegIdx) (s t : State), alu p tag a b s = .ok t →
    (tag = .cmp ∧ t = { s with fl := t.fl } ∧ (t.fl = flagE ∨ t.fl = flagG ∨ t.fl = flagL)) ∨
    ((tag = .add ∨ tag = .mul) ∧ t = { s with regs := t.regs } ∧ ∀ q, q ≠ a → t.reg q = s.reg q)) ∧
  (∀ (p : Config.Policy) (n : Nat) (a b : RegIdx) (s : State),
    alu p (.other n) a b s = .error (.unsupportedAluOperation (.other n))) ∧
  (∀ (p : Config.Policy) (s t : State) (tag : AluTag), stepUnder p s = .next t →
    t ≠ takeFault (.unsupportedAluOperation tag) s)

/-! ### Frames -/

/-- LDI, ADD and MUL change one register and the PC: every other register, FL, the output and every byte of memory are
as before, for every operand byte (10_state.md R22, R25; 20_memory.md R41). -/
def Obligations.RegisterWritersFrame : Prop :=
  ∀ (i : Instr) (r b : Byte) (s t : State), i = .ldi r b ∨ i = .add r b ∨ i = .mul r b → exec i s = .next t →
    (∀ q : RegIdx, regByte q ≠ r → t.reg q = s.reg q) ∧ t.fl = s.fl ∧ t.output = s.output ∧
    (∀ a, t.load a = s.load a) ∧
    (t.phase = .faulted ∨ (t.phase = s.phase ∧ t.faultRecord = s.faultRecord))

/-- HLT, PRN, CMP, JMP, JEQ and JNE write no register and no memory; FL changes by CMP alone, the output by PRN alone,
and the phase, but for a fault, by HLT alone (10_state.md R22, R25; 20_memory.md R41). -/
def Obligations.NoRegisterWritersFrame : Prop :=
  ∀ (i : Instr) (a b : Byte) (s t : State),
    i = .hlt ∨ i = .prn a ∨ i = .cmp a b ∨ i = .jmp a ∨ i = .jeq a ∨ i = .jne a → exec i s = .next t →
    (∀ q : RegIdx, t.reg q = s.reg q) ∧ (i ≠ .cmp a b → t.fl = s.fl) ∧ (i ≠ .prn a → t.output = s.output) ∧
    (∀ x, t.load x = s.load x) ∧
    (t.phase = .faulted ∨ (t.faultRecord = s.faultRecord ∧ (i ≠ .hlt → t.phase = s.phase)))

/-- PUSH, POP, CALL and RET change R7, and POP its destination; no flag, no output. PUSH and CALL store one byte, at
SP - 1 as `wrap8` forms it; POP and RET store nothing (10_state.md R22; 20_memory.md R41). -/
def Obligations.StackInstructionsFrame : Prop :=
  ∀ (i : Instr) (r : Byte) (s t : State), i = .push r ∨ i = .pop r ∨ i = .call r ∨ i = .ret → exec i s = .next t →
    (∀ q : RegIdx, q ≠ 7 → (i = .pop r → regByte q ≠ r) → t.reg q = s.reg q) ∧ t.fl = s.fl ∧ t.output = s.output ∧
    (∀ a, wrap8 Config.hardware.overflow ((s.sp.toNat : Int) - 1) = .ok a → ∀ x, x ≠ a → t.load x = s.load x) ∧
    (i = .pop r ∨ i = .ret → ∀ x, t.load x = s.load x) ∧
    (t.phase = .faulted ∨ (t.phase = s.phase ∧ t.faultRecord = s.faultRecord))

/-- The fall-through: an instruction that sets no PC of its own moves it on by its length, modulo 256, and the return
address of CALL is its own address plus its length (10_state.md R25; 30_encoding.md R68). -/
def Obligations.FallThroughIsTheLength : Prop :=
  (∀ (i : Instr) (s t : State), i.wellFormed = true → (opcodeByte (opcodeOf i)).getLsbD 4 = false →
    exec i s = .next t → t.pc = s.pc + BitVec.ofNat 8 (instrLength i)) ∧
  (∀ (r : RegIdx) (s t : State), exec (.call (regByte r)) s = .next t →
    t.load t.sp = s.pc + BitVec.ofNat 8 (instrLength (.call (regByte r))))

/-! ### Flags and output -/

/-- FL is written by CMP alone, which writes one of the three values; after a CMP exactly one of E, G, L is set for
good; before, all are 0; a fault leaves FL as it was (10_state.md R27). -/
def Obligations.FlagsChangeByCompareAlone : Prop :=
  (∀ s t : State, step s = .next t → s.load s.pc ≠ 0xA7 → t.fl = s.fl) ∧
  (∀ s t : State, step s = .next t → s.load s.pc = 0xA7 → t.phase ≠ .faulted →
    t.fl = 0b00000001 ∨ t.fl = 0b00000010 ∨ t.fl = 0b00000100) ∧
  (∀ s t : State, step s = .next t → t.phase = .faulted → t.fl = s.fl) ∧
  (∀ s t : State, step s = .next t → (s.fl = 0b00000001 ∨ s.fl = 0b00000010 ∨ s.fl = 0b00000100) →
    t.fl = 0b00000001 ∨ t.fl = 0b00000010 ∨ t.fl = 0b00000100) ∧
  State.reset.fl = 0b00000000

/-- G and L are written but never observed: from two states that differ in them alone, steps give states that differ in
them alone (10_state.md R28). -/
def Obligations.GreaterAndLessAreNeverObserved : Prop :=
  ∀ s s' t : State, sameButGL s s' → step s = .next t → ∃ t', step s' = .next t' ∧ sameButGL t t'

/-- No instruction reads the output trace: what was emitted before changes nothing that a step does
(10_state.md R32; 60_exceptions.md R184). -/
def Obligations.OutputTraceIsNeverRead : Prop :=
  ∀ (s t : State) (earlier : List Byte), step s = .next t →
    step { s with output := earlier ++ s.output } = .next { t with output := earlier ++ t.output }

/-- A step appends one byte to the output trace, and only PRN does (10_state.md R32; 60_exceptions.md R184). -/
def Obligations.OutputGrowsByPrintAlone : Prop :=
  ∀ s t : State, step s = .next t →
    (s.load s.pc ≠ 0x47 → t.output = s.output) ∧
    (s.load s.pc = 0x47 → t.phase ≠ .faulted → ∃ v, t.output = s.output ++ [v])

/-! ### Primitives -/

/-- `wrap8` (00_scope.md R12, the spec's decision D1). -/
def Obligations.WrapPolicyReducesModulo256 : Prop :=
  (∀ v : Int, ∃ b, wrap8 .wrap v = .ok b ∧ (b.toNat : Int) = v % 256) ∧
  (∀ v : Int, 0 ≤ v → v ≤ 255 → ∃ b, wrap8 .fault v = .ok b ∧ (b.toNat : Int) = v) ∧
  (∀ v : Int, v < 0 ∨ 255 < v → wrap8 .fault v = .error (.overflow v))

/-- `reg(b)` (00_scope.md R13, the spec's decision D5). -/
def Obligations.RegisterOperandBelowEight : Prop :=
  ∀ b : Byte,
    (b.toNat < 8 → ∃ r : RegIdx, regOperand b = .ok r ∧ r.val = b.toNat) ∧
    (8 ≤ b.toNat → regOperand b = .error (.invalidRegister b))

/-- The register file (10_state.md R20): eight registers, 0 at reset, each reading back the last value written; none is
hard-wired and none shares storage with another. -/
def Obligations.RegistersReadBack : Prop :=
  (∀ (s : State) (r q : RegIdx) (v : Byte), (s.setReg r v).reg q = if q = r then v else s.reg q) ∧
  (∀ r : RegIdx, State.reset.reg r = 0)

/-- Memory (20_memory.md R43): a read after a write gives the byte written, and a write changes its one cell alone. -/
def Obligations.MemoryReadsBack : Prop :=
  ∀ (s : State) (a b v : Byte), (s.store a v).load b = if b = a then v else s.load b

/-- Fetch sees every store: a byte that PUSH or CALL writes at an address the next instruction stands at is the one the
next step fetches (20_memory.md R51). -/
def Obligations.NextFetchSeesStore : Prop :=
  ∀ (i : Instr) (r : RegIdx) (v : Byte) (s t : State),
    (i = .push (regByte r) ∧ v = if r = 7 then s.reg 7 - 1 else s.reg r) ∨ (i = .call (regByte r) ∧ v = s.pc + 2) →
    exec i s = .next t →
    ∃ f, fetch Config.hardware t = .ok f ∧ (t.pc = s.reg 7 - 1 → f.opcode = v) ∧
      (t.pc + 1 = s.reg 7 - 1 → f.a = v) ∧ (t.pc + 2 = s.reg 7 - 1 → f.b = v)

/-! ### Reset, the host, and whole runs -/

/-- Reset (70_reset_and_hazards.md R190): every piece of state has the value of the rule's table; the values of FL, the
phase, the fault record and the output trace are the spec's decisions D6, D12, D8 and D10. -/
def Obligations.ResetState : Prop :=
  (∀ a, State.reset.load a = 0) ∧ (∀ r : RegIdx, State.reset.reg r = 0) ∧ State.reset.pc = 0 ∧
  State.reset.fl = 0b00000000 ∧ State.reset.phase = .load ∧ State.reset.faultRecord = none ∧ State.reset.output = []

/-- The host's load (70_reset_and_hazards.md R194, D12): in LOAD, byte k of the image goes to address k, all else stays;
an image of more than 256 bytes is refused, and so is a load in any other phase. R194 says that cells past the image keep
0, which the first clause says of a load from reset. That it holds in every LOAD state, so that a second load is accepted
and leaves an earlier load's bytes past its own image, is the model's choice: DESIGN CHOICE, assumption log 13. -/
def Obligations.HostLoadPlacesImage : Prop :=
  (∀ (image : List Byte) (s : State), s.phase = .load → image.length ≤ 256 →
    ∃ m, hostLoad image s = .next { s with mem := m } ∧
      (∀ (k : Nat) (h : k < image.length), m.read (BitVec.ofNat 8 k) = image[k]) ∧
      (∀ a : Byte, image.length ≤ a.toNat → m.read a = s.load a)) ∧
  (∀ (image : List Byte) (s : State), s.phase = .load → 256 < image.length →
    hostLoad image s = .refused .imageTooLong) ∧
  (∀ (image : List Byte) (s : State), s.phase ≠ .load → hostLoad image s = .refused .loadOutsideLoadPhase)

/-- The host's run (70_reset_and_hazards.md R195, D12): LOAD becomes RUNNING; in any other phase it is refused. -/
def Obligations.HostRunStartsOnce : Prop :=
  (∀ s : State, s.phase = .load → hostRun s = .next { s with phase := .running }) ∧
  (∀ s : State, s.phase ≠ .load → hostRun s = .refused .runOutsideLoadPhase)

/-- The snapshot shows PC, the three bytes at PC modulo 256, which the next step fetches, and R0 to R7
(60_exceptions.md R183, D11). -/
def Obligations.SnapshotShowsNextFetch : Prop :=
  ∀ s : State,
    (hostSnapshot s).pc = s.pc ∧
    (∀ (k : Nat) (h : k < 3), (hostSnapshot s).bytes[k] = s.load (s.pc + BitVec.ofNat 8 k)) ∧
    fetch Config.hardware s =
      .ok ⟨(hostSnapshot s).bytes[0], (hostSnapshot s).bytes[1], (hostSnapshot s).bytes[2]⟩ ∧
    (∀ r : RegIdx, (hostSnapshot s).regs[r] = s.reg r)

/-- The invariant holds at reset (70_reset_and_hazards.md R190). -/
def Obligations.ResetMeetsInvariant : Prop := Inv State.reset

/-- Every step keeps the invariant: canonical memory, legal flags, a fault record in FAULTED alone and fitting the
instruction at PC (10_state.md R26, R27, R31; 20_memory.md R40; 60_exceptions.md R172). -/
def Obligations.StepKeepsInvariant : Prop :=
  ∀ s t : State, Inv s → step s = .next t → Inv t

/-- The invariant holds in every state that the host's moves and steps can reach from reset (R190 to R195).
That these moves include a second load before run is the model's choice: DESIGN CHOICE, assumption log 13. -/
def Obligations.ReachableMeetsInvariant : Prop := ∀ s : State, Reachable s → Inv s

/-- A JMP to its own address never ends: after any number of steps the machine is where it was
(44_branch.md R150; 40_execution_loop.md R87). -/
def Obligations.JumpToSelfRunsForever : Prop :=
  ∀ (s : State) (r : RegIdx), s.phase = .running → s.load s.pc = 0x54 → s.load (s.pc + 1) = regByte r →
    s.reg r = s.pc → ∀ n, Host.Core.run core n s = .next s
end

