-- ==== Sys2Proof/Laws/Decode.lean ====
section
/-! SUPPORT. The lookup of an opcode byte inverts the opcode table (30_encoding.md R63, R65, R66). -/

namespace Sys2Proof

/-- Looking an opcode's own byte up gives the opcode. -/
@[simp] theorem opcodeOfByte_opcodeByte (o : Opcode) : opcodeOfByte (opcodeByte o) = some o := by
  cases o <;> rfl

/-- A byte that is found is the found opcode's. -/
theorem opcodeByte_of_opcodeOfByte {op : Byte} {o : Opcode} (h : opcodeOfByte op = some o) : opcodeByte o = op := by
  simpa using List.find?_some h

theorem opcodeOfByte_eq_some {op : Byte} {o : Opcode} : opcodeOfByte op = some o ↔ op = opcodeByte o :=
  ⟨fun h => (opcodeByte_of_opcodeOfByte h).symm, fun h => h ▸ opcodeOfByte_opcodeByte o⟩

@[simp] theorem opcodeOf_instrOf (o : Opcode) (a b : Byte) : opcodeOf (instrOf o a b) = o := by
  cases o <;> rfl

/-- What `decode` can answer: an instruction whose opcode is the fetched byte, or a refusal naming that byte. -/
theorem decode_cases (f : Fetched) :
    (∃ o, f.opcode = opcodeByte o ∧ decode f = .ok (instrOf o f.a f.b)) ∨
      (opcodeOfByte f.opcode = none ∧ decode f = .error (.invalidOpcode f.opcode)) := by
  cases h : opcodeOfByte f.opcode with
  | none => exact .inr ⟨rfl, by simp [decode, h]⟩
  | some o => exact .inl ⟨o, opcodeOfByte_eq_some.mp h, by simp [decode, h]⟩

end Sys2Proof
end

