-- ==== Sys2Proof/Laws/State.lean ====
section
/-! SUPPORT. One lemma per field per update of the state, so that no later proof unfolds a record update. -/

namespace Sys2Proof.Machine

variable (s : State)

@[simp] theorem State.setReg_regs (r : RegIdx) (v : Byte) : (s.setReg r v).regs = s.regs.set r v := rfl
@[simp] theorem State.setReg_pc (r : RegIdx) (v : Byte) : (s.setReg r v).pc = s.pc := rfl
@[simp] theorem State.setReg_fl (r : RegIdx) (v : Byte) : (s.setReg r v).fl = s.fl := rfl
@[simp] theorem State.setReg_phase (r : RegIdx) (v : Byte) : (s.setReg r v).phase = s.phase := rfl
@[simp] theorem State.setReg_faultRecord (r : RegIdx) (v : Byte) : (s.setReg r v).faultRecord = s.faultRecord := rfl
@[simp] theorem State.setReg_output (r : RegIdx) (v : Byte) : (s.setReg r v).output = s.output := rfl
@[simp] theorem State.setReg_mem (r : RegIdx) (v : Byte) : (s.setReg r v).mem = s.mem := rfl

@[simp] theorem State.setSp_regs (v : Byte) : (s.setSp v).regs = s.regs.set Config.spIndex v := rfl
@[simp] theorem State.setSp_pc (v : Byte) : (s.setSp v).pc = s.pc := rfl
@[simp] theorem State.setSp_fl (v : Byte) : (s.setSp v).fl = s.fl := rfl
@[simp] theorem State.setSp_phase (v : Byte) : (s.setSp v).phase = s.phase := rfl
@[simp] theorem State.setSp_faultRecord (v : Byte) : (s.setSp v).faultRecord = s.faultRecord := rfl
@[simp] theorem State.setSp_output (v : Byte) : (s.setSp v).output = s.output := rfl
@[simp] theorem State.setSp_mem (v : Byte) : (s.setSp v).mem = s.mem := rfl

@[simp] theorem State.setPc_regs (v : Byte) : (s.setPc v).regs = s.regs := rfl
@[simp] theorem State.setPc_pc (v : Byte) : (s.setPc v).pc = v := rfl
@[simp] theorem State.setPc_fl (v : Byte) : (s.setPc v).fl = s.fl := rfl
@[simp] theorem State.setPc_phase (v : Byte) : (s.setPc v).phase = s.phase := rfl
@[simp] theorem State.setPc_faultRecord (v : Byte) : (s.setPc v).faultRecord = s.faultRecord := rfl
@[simp] theorem State.setPc_output (v : Byte) : (s.setPc v).output = s.output := rfl
@[simp] theorem State.setPc_mem (v : Byte) : (s.setPc v).mem = s.mem := rfl

@[simp] theorem State.setFl_regs (v : Byte) : (s.setFl v).regs = s.regs := rfl
@[simp] theorem State.setFl_pc (v : Byte) : (s.setFl v).pc = s.pc := rfl
@[simp] theorem State.setFl_fl (v : Byte) : (s.setFl v).fl = v := rfl
@[simp] theorem State.setFl_phase (v : Byte) : (s.setFl v).phase = s.phase := rfl
@[simp] theorem State.setFl_faultRecord (v : Byte) : (s.setFl v).faultRecord = s.faultRecord := rfl
@[simp] theorem State.setFl_output (v : Byte) : (s.setFl v).output = s.output := rfl
@[simp] theorem State.setFl_mem (v : Byte) : (s.setFl v).mem = s.mem := rfl

@[simp] theorem State.setPhase_regs (p : Phase) : (s.setPhase p).regs = s.regs := rfl
@[simp] theorem State.setPhase_pc (p : Phase) : (s.setPhase p).pc = s.pc := rfl
@[simp] theorem State.setPhase_fl (p : Phase) : (s.setPhase p).fl = s.fl := rfl
@[simp] theorem State.setPhase_phase (p : Phase) : (s.setPhase p).phase = p := rfl
@[simp] theorem State.setPhase_faultRecord (p : Phase) : (s.setPhase p).faultRecord = s.faultRecord := rfl
@[simp] theorem State.setPhase_output (p : Phase) : (s.setPhase p).output = s.output := rfl
@[simp] theorem State.setPhase_mem (p : Phase) : (s.setPhase p).mem = s.mem := rfl

@[simp] theorem State.emit_regs (v : Byte) : (s.emit v).regs = s.regs := rfl
@[simp] theorem State.emit_pc (v : Byte) : (s.emit v).pc = s.pc := rfl
@[simp] theorem State.emit_fl (v : Byte) : (s.emit v).fl = s.fl := rfl
@[simp] theorem State.emit_phase (v : Byte) : (s.emit v).phase = s.phase := rfl
@[simp] theorem State.emit_faultRecord (v : Byte) : (s.emit v).faultRecord = s.faultRecord := rfl
@[simp] theorem State.emit_output (v : Byte) : (s.emit v).output = s.output ++ [v] := rfl
@[simp] theorem State.emit_mem (v : Byte) : (s.emit v).mem = s.mem := rfl

@[simp] theorem State.store_regs (a v : Byte) : (s.store a v).regs = s.regs := rfl
@[simp] theorem State.store_pc (a v : Byte) : (s.store a v).pc = s.pc := rfl
@[simp] theorem State.store_fl (a v : Byte) : (s.store a v).fl = s.fl := rfl
@[simp] theorem State.store_phase (a v : Byte) : (s.store a v).phase = s.phase := rfl
@[simp] theorem State.store_faultRecord (a v : Byte) : (s.store a v).faultRecord = s.faultRecord := rfl
@[simp] theorem State.store_output (a v : Byte) : (s.store a v).output = s.output := rfl
@[simp] theorem State.store_mem (a v : Byte) : (s.store a v).mem = s.mem.write a v := rfl

@[simp] theorem takeFault_regs (c : FaultCause) : (takeFault c s).regs = s.regs := rfl
@[simp] theorem takeFault_pc (c : FaultCause) : (takeFault c s).pc = s.pc := rfl
@[simp] theorem takeFault_fl (c : FaultCause) : (takeFault c s).fl = s.fl := rfl
@[simp] theorem takeFault_phase (c : FaultCause) : (takeFault c s).phase = .faulted := rfl
@[simp] theorem takeFault_faultRecord (c : FaultCause) : (takeFault c s).faultRecord = some { cause := c, pc := s.pc, opcode := s.load s.pc } := rfl
@[simp] theorem takeFault_output (c : FaultCause) : (takeFault c s).output = s.output := rfl
@[simp] theorem takeFault_mem (c : FaultCause) : (takeFault c s).mem = s.mem := rfl

@[simp] theorem storeFetched_regs (f : Fetched) : (storeFetched s f).regs = s.regs := rfl
@[simp] theorem storeFetched_pc (f : Fetched) : (storeFetched s f).pc = s.pc := rfl
@[simp] theorem storeFetched_fl (f : Fetched) : (storeFetched s f).fl = s.fl := rfl
@[simp] theorem storeFetched_phase (f : Fetched) : (storeFetched s f).phase = s.phase := rfl
@[simp] theorem storeFetched_faultRecord (f : Fetched) : (storeFetched s f).faultRecord = s.faultRecord := rfl
@[simp] theorem storeFetched_output (f : Fetched) : (storeFetched s f).output = s.output := rfl

/-! The views of the state, under each update. -/

@[simp] theorem State.setReg_load (r : RegIdx) (v : Byte) (x : Byte) : (s.setReg r v).load x = s.load x := rfl
@[simp] theorem State.setReg_flE (r : RegIdx) (v : Byte) : (s.setReg r v).flE = s.flE := rfl
@[simp] theorem State.setSp_load (v : Byte) (x : Byte) : (s.setSp v).load x = s.load x := rfl
@[simp] theorem State.setSp_flE (v : Byte) : (s.setSp v).flE = s.flE := rfl
@[simp] theorem State.setPc_reg (v : Byte) (q : RegIdx) : (s.setPc v).reg q = s.reg q := rfl
@[simp] theorem State.setPc_sp (v : Byte) : (s.setPc v).sp = s.sp := rfl
@[simp] theorem State.setPc_load (v : Byte) (x : Byte) : (s.setPc v).load x = s.load x := rfl
@[simp] theorem State.setPc_flE (v : Byte) : (s.setPc v).flE = s.flE := rfl
@[simp] theorem State.setFl_reg (v : Byte) (q : RegIdx) : (s.setFl v).reg q = s.reg q := rfl
@[simp] theorem State.setFl_sp (v : Byte) : (s.setFl v).sp = s.sp := rfl
@[simp] theorem State.setFl_load (v : Byte) (x : Byte) : (s.setFl v).load x = s.load x := rfl
@[simp] theorem State.setPhase_reg (p : Phase) (q : RegIdx) : (s.setPhase p).reg q = s.reg q := rfl
@[simp] theorem State.setPhase_sp (p : Phase) : (s.setPhase p).sp = s.sp := rfl
@[simp] theorem State.setPhase_load (p : Phase) (x : Byte) : (s.setPhase p).load x = s.load x := rfl
@[simp] theorem State.setPhase_flE (p : Phase) : (s.setPhase p).flE = s.flE := rfl
@[simp] theorem State.emit_reg (v : Byte) (q : RegIdx) : (s.emit v).reg q = s.reg q := rfl
@[simp] theorem State.emit_sp (v : Byte) : (s.emit v).sp = s.sp := rfl
@[simp] theorem State.emit_load (v : Byte) (x : Byte) : (s.emit v).load x = s.load x := rfl
@[simp] theorem State.emit_flE (v : Byte) : (s.emit v).flE = s.flE := rfl
@[simp] theorem State.store_reg (a v : Byte) (q : RegIdx) : (s.store a v).reg q = s.reg q := rfl
@[simp] theorem State.store_sp (a v : Byte) : (s.store a v).sp = s.sp := rfl
@[simp] theorem State.store_flE (a v : Byte) : (s.store a v).flE = s.flE := rfl
@[simp] theorem takeFault_reg (c : FaultCause) (q : RegIdx) : (takeFault c s).reg q = s.reg q := rfl
@[simp] theorem takeFault_sp (c : FaultCause) : (takeFault c s).sp = s.sp := rfl
@[simp] theorem takeFault_load (c : FaultCause) (x : Byte) : (takeFault c s).load x = s.load x := rfl
@[simp] theorem takeFault_flE (c : FaultCause) : (takeFault c s).flE = s.flE := rfl

end Sys2Proof.Machine
end

