-- ==== Sys2Proof/Laws/Memory.lean ====
section
/-! SUPPORT. The laws of memory and of the register file: a read after a write, and the canonical form of memory
(20_memory.md R40, R43, R49; 10_state.md R20). -/

namespace Sys2Proof.Machine

theorem Memory.cell_insert (m : Memory) (a b : Nat) (v : Byte) :
    Memory.cell (Memory.insert m a v) b = if a = b then v else Memory.cell m b := by
  induction m with
  | nil => rfl
  | cons c m ih =>
    obtain ⟨k, w⟩ := c
    simp only [Memory.insert, Memory.cell]
    split_ifs <;> simp_all [Memory.cell]
    all_goals omega

theorem Memory.cell_clear (m : Memory) (a b : Nat) :
    Memory.cell (Memory.clear m a) b = if a = b then 0 else Memory.cell m b := by
  induction m with
  | nil => simp [Memory.clear, Memory.cell]
  | cons c m ih =>
    obtain ⟨k, w⟩ := c
    simp only [Memory.clear, List.filter_cons, Memory.cell] at ih ⊢
    split_ifs at ih ⊢ <;> simp_all [Memory.cell]

/-- A read after a write: the byte written at its address, the old byte at every other (R43, R49). -/
theorem Memory.read_write (m : Memory) (a b v : Byte) :
    (m.write a v).read b = if a = b then v else m.read b := by
  simp only [Memory.read, Memory.write, BitVec.toNat_eq]
  split_ifs with hv <;> simp_all [Memory.cell_insert, Memory.cell_clear]

@[simp] theorem Memory.read_write_same (m : Memory) (a v : Byte) : (m.write a v).read a = v := by
  simp [Memory.read_write]

theorem Memory.read_write_other (m : Memory) {a b : Byte} (v : Byte) (h : a ≠ b) :
    (m.write a v).read b = m.read b := by
  simp [Memory.read_write, h]

theorem Memory.wfFrom_mono {lo lo' : Nat} (h : lo' ≤ lo) (m : Memory) (hm : Memory.wfFrom lo m = true) :
    Memory.wfFrom lo' m = true := by
  cases m with
  | nil => rfl
  | cons c m => simp_all [Memory.wfFrom]; omega

theorem Memory.wfFrom_insert {a : Nat} {v : Byte} (ha : a < 256) (hv : v ≠ 0) (m : Memory) :
    ∀ lo, lo ≤ a → Memory.wfFrom lo m = true → Memory.wfFrom lo (Memory.insert m a v) = true := by
  induction m with
  | nil =>
    intro lo hlo _
    simp only [Memory.insert, Memory.wfFrom, Bool.and_eq_true, decide_eq_true_eq]
    exact ⟨⟨⟨hlo, ha⟩, hv⟩, trivial⟩
  | cons c m ih =>
    obtain ⟨k, w⟩ := c
    intro lo hlo hm
    simp only [Memory.wfFrom, Bool.and_eq_true, decide_eq_true_eq] at hm
    simp only [Memory.insert]
    split_ifs with h₁ h₂
    all_goals simp only [Memory.wfFrom, Bool.and_eq_true, decide_eq_true_eq]
    · exact ⟨⟨⟨hlo, ha⟩, hv⟩, ⟨⟨h₁, hm.1.1.2⟩, hm.1.2⟩, hm.2⟩
    · subst h₂
      exact ⟨⟨⟨hlo, ha⟩, hv⟩, hm.2⟩
    · exact ⟨hm.1, ih (k + 1) (by omega) hm.2⟩

theorem Memory.wfFrom_clear (a : Nat) (m : Memory) :
    ∀ lo, Memory.wfFrom lo m = true → Memory.wfFrom lo (Memory.clear m a) = true := by
  induction m with
  | nil => intro _ _; rfl
  | cons c m ih =>
    obtain ⟨k, w⟩ := c
    intro lo hm
    simp only [Memory.wfFrom, Bool.and_eq_true, decide_eq_true_eq] at hm
    have hrest := ih (k + 1) hm.2
    simp only [Memory.clear, List.filter_cons] at hrest ⊢
    split_ifs
    · simp only [Memory.wfFrom, Bool.and_eq_true, decide_eq_true_eq]
      exact ⟨hm.1, hrest⟩
    · exact Memory.wfFrom_mono (by omega) _ hrest

/-- A write keeps the canonical form. -/
theorem Memory.wf_write {m : Memory} (a v : Byte) (h : m.wf = true) : (m.write a v).wf = true := by
  unfold Memory.write
  split_ifs with hv
  · exact Memory.wfFrom_clear _ _ _ h
  · exact Memory.wfFrom_insert a.isLt hv m 0 (Nat.zero_le _) h

/-- The memory after reset has the canonical form. -/
theorem reset_mem_wf : State.reset.mem.wf = true := rfl

theorem State.store_wf {s : State} (a v : Byte) (h : s.mem.wf = true) : (s.store a v).mem.wf = true :=
  Memory.wf_write a v h

/-- Placing an instruction's three bytes keeps the canonical form. -/
theorem storeFetched_wf {s : State} (f : Fetched) (h : s.mem.wf = true) : (storeFetched s f).mem.wf = true :=
  State.store_wf _ _ (State.store_wf _ _ (State.store_wf _ _ h))

/-- The host's load keeps the canonical form. -/
theorem loadBytes_wf (image : List Byte) :
    ∀ (i : Nat) (m : Memory), m.wf = true → (loadBytes i image m).wf = true := by
  induction image with
  | nil => exact fun _ _ h => h
  | cons v image ih => exact fun i m h => ih (i + 1) _ (Memory.wf_write _ _ h)

theorem Memory.cell_below {lo a : Nat} (h : a < lo) (m : Memory) :
    ∀ lo', lo ≤ lo' → Memory.wfFrom lo' m = true → Memory.cell m a = 0 := by
  induction m with
  | nil => exact fun _ _ _ => rfl
  | cons c m ih =>
    intro lo' hlo hm
    simp only [Memory.wfFrom, Bool.and_eq_true, decide_eq_true_eq] at hm
    have hne : c.1 ≠ a := by omega
    simpa [Memory.cell, hne] using ih (c.1 + 1) (by omega) hm.2

theorem Memory.eq_of_cells (m : Memory) : ∀ (m' : Memory) (lo : Nat), Memory.wfFrom lo m = true →
    Memory.wfFrom lo m' = true → (∀ a, a < 256 → Memory.cell m a = Memory.cell m' a) → m = m' := by
  induction m with
  | nil =>
    intro m' lo _ hm' h
    cases m' with
    | nil => rfl
    | cons c m' =>
      simp only [Memory.wfFrom, Bool.and_eq_true, decide_eq_true_eq] at hm'
      have := h c.1 hm'.1.1.2
      simp only [Memory.cell, if_true] at this
      exact absurd this.symm hm'.1.2
  | cons c m ih =>
    intro m' lo hm hm' h
    simp only [Memory.wfFrom, Bool.and_eq_true, decide_eq_true_eq] at hm
    cases m' with
    | nil =>
      have := h c.1 hm.1.1.2
      simp only [Memory.cell, if_true] at this
      exact absurd this hm.1.2
    | cons c' m' =>
      simp only [Memory.wfFrom, Bool.and_eq_true, decide_eq_true_eq] at hm'
      have hfst : c.1 = c'.1 := by
        rcases Nat.lt_trichotomy c.1 c'.1 with hlt | heq | hlt
        · have := h c.1 hm.1.1.2
          have hne : c'.1 ≠ c.1 := by omega
          simp only [Memory.cell, if_true, hne, if_false,
            Memory.cell_below hlt m' (c'.1 + 1) (by omega) hm'.2] at this
          exact absurd this hm.1.2
        · exact heq
        · have := h c'.1 hm'.1.1.2
          have hne : c.1 ≠ c'.1 := by omega
          simp only [Memory.cell, if_true, hne, if_false,
            Memory.cell_below hlt m (c.1 + 1) (by omega) hm.2] at this
          exact absurd this.symm hm'.1.2
      have hsnd : c.2 = c'.2 := by simpa [Memory.cell, hfst] using h c'.1 hm'.1.1.2
      have htail : m = m' := by
        refine ih m' (c.1 + 1) hm.2 (hfst ▸ hm'.2) fun a ha => ?_
        by_cases hac : c.1 = a
        · rw [Memory.cell_below (Nat.lt_succ_self a) m (c.1 + 1) (by omega) hm.2,
            Memory.cell_below (Nat.lt_succ_self a) m' (c'.1 + 1) (by omega) hm'.2]
        · have hac' : c'.1 ≠ a := hfst ▸ hac
          simpa [Memory.cell, hac, hac'] using h a ha
      rw [htail, Prod.ext hfst hsnd]

/-- Canonical memories that read the same at every address are the same data. -/
theorem Memory.eq_of_read {m m' : Memory} (hm : m.wf = true) (hm' : m'.wf = true)
    (h : ∀ a : Byte, m.read a = m'.read a) : m = m' :=
  Memory.eq_of_cells m m' 0 hm hm' fun a ha => by
    have hn : (BitVec.ofNat 8 a).toNat = a := by simp; omega
    simpa [Memory.read, hn] using h (BitVec.ofNat 8 a)

theorem State.load_store (s : State) (a b v : Byte) :
    (s.store a v).load b = if a = b then v else s.load b := Memory.read_write s.mem a b v

/-- A read of a register after a write: the byte written to it, the old byte of every other (R20). -/
theorem State.reg_setReg (s : State) (r q : RegIdx) (v : Byte) :
    (s.setReg r v).reg q = if r = q then v else s.reg q := by
  simp [State.reg, State.setReg, Vector.getElem_set, Fin.ext_iff]

@[simp] theorem State.reg_setReg_same (s : State) (r : RegIdx) (v : Byte) : (s.setReg r v).reg r = v := by
  simp [State.reg_setReg]

theorem State.reg_setReg_other (s : State) {r q : RegIdx} (v : Byte) (h : r ≠ q) :
    (s.setReg r v).reg q = s.reg q := by
  simp [State.reg_setReg, h]

@[simp] theorem State.sp_setSp (s : State) (v : Byte) : (s.setSp v).sp = v := State.reg_setReg_same ..

/-- Two register files that agree at every index are equal. -/
theorem regs_ext {s t : State} (h : ∀ r, s.reg r = t.reg r) : s.regs = t.regs :=
  Vector.ext fun i hi => h ⟨i, hi⟩

end Sys2Proof.Machine
end

