-- ==== Sys2Proof/Laws/Ops.lean ====
section
/-! SUPPORT. What each shared operation can do: `wrap8`, `regOperand`, `commit`, `advance`, the ALU, the stack
operations, `branch`, `fetch` and `stepBy`. -/

namespace Sys2Proof.Machine

/-! ### wrap8 -/

/-- Under `Wrap` nothing is raised, and the result is the value modulo 256 (R12). -/
@[simp] theorem wrap8_wrap (v : Int) : wrap8 .wrap v = .ok (BitVec.ofInt 8 v) := rfl

/-- Under `Fault` a value in range passes unchanged (R12). -/
theorem wrap8_fault_inside {v : Int} (h₀ : 0 ≤ v) (h₁ : v ≤ 255) : wrap8 .fault v = .ok (BitVec.ofInt 8 v) := by
  simp [wrap8, h₀, h₁]

/-- Under `Fault` a value out of range raises `Overflow` with the value (R12). -/
theorem wrap8_fault_outside {v : Int} (h : v < 0 ∨ 255 < v) : wrap8 .fault v = .error (.overflow v) := by
  simp only [wrap8, ite_eq_right_iff, reduceCtorEq]
  omega

/-- What `wrap8` can answer under any policy. -/
theorem wrap8_ok {p : Config.OverflowPolicy} {v : Int} {b : Byte} (h : wrap8 p v = .ok b) : b = BitVec.ofInt 8 v := by
  cases p with
  | wrap => exact (Except.ok.inj h).symm
  | fault =>
    simp only [wrap8] at h
    split at h
    · exact (Except.ok.inj h).symm
    · cases h

/-- What `wrap8` can raise: `Overflow`, and only under `Fault`. -/
theorem wrap8_error {p : Config.OverflowPolicy} {v : Int} {c : FaultCause} (h : wrap8 p v = .error c) :
    p = .fault ∧ c = .overflow v := by
  cases p with
  | wrap => cases h
  | fault =>
    simp only [wrap8] at h
    split at h
    · cases h
    · exact ⟨rfl, (Except.error.inj h).symm⟩

theorem ofInt_toNat_add (x : Byte) (n : Nat) : BitVec.ofInt 8 ((x.toNat : Int) + n) = x + BitVec.ofNat 8 n := by
  have h : ((x.toNat : Int) + n) = ((x.toNat + n : Nat) : Int) := by push_cast; rfl
  rw [h, BitVec.ofInt_natCast, BitVec.ofNat_add, BitVec.ofNat_toNat, BitVec.setWidth_eq]

theorem ofInt_sum (x y : Byte) : BitVec.ofInt 8 ((x.toNat : Int) + y.toNat) = x + y := by
  rw [ofInt_toNat_add, BitVec.ofNat_toNat, BitVec.setWidth_eq]

theorem ofInt_product (x y : Byte) : BitVec.ofInt 8 ((x.toNat : Int) * y.toNat) = x * y := by
  have h : ((x.toNat : Int) * y.toNat) = ((x.toNat * y.toNat : Nat) : Int) := by push_cast; rfl
  rw [h, BitVec.ofInt_natCast]
  exact BitVec.eq_of_toNat_eq (by simp)

theorem ofInt_pred (x : Byte) : BitVec.ofInt 8 ((x.toNat : Int) - 1) = x - 1 :=
  BitVec.eq_of_toNat_eq (by
    rw [BitVec.toNat_ofInt, BitVec.toNat_sub]
    have := x.isLt
    have h : (1 : Byte).toNat = 1 := rfl
    rw [h]
    omega)

/-! ### Register operands -/

theorem regOperand_of_lt {b : Byte} (h : b.toNat < 8) : regOperand b = .ok ⟨b.toNat, h⟩ := by
  simp [regOperand, h]

theorem regOperand_of_ge {b : Byte} (h : 8 ≤ b.toNat) : regOperand b = .error (.invalidRegister b) := by
  simp [regOperand, Nat.not_lt.mpr h]

/-- The byte of a register names it (R61). -/
theorem regOperand_regByte (r : RegIdx) : regOperand (regByte r) = .ok r := by
  revert r; decide

/-- Every byte is a register's byte or is 8 or more. -/
theorem byte_cases (b : Byte) : (∃ r, b = regByte r) ∨ 8 ≤ b.toNat := by
  rcases Nat.lt_or_ge b.toNat 8 with h | h
  · exact .inl ⟨⟨b.toNat, h⟩, BitVec.eq_of_toNat_eq (by simp [regByte])⟩
  · exact .inr h

theorem regByte_toNat_lt (r : RegIdx) : (regByte r).toNat < 8 := by
  revert r; decide

/-- What `regOperand` can raise (R13). -/
theorem regOperand_error {b : Byte} {c : FaultCause} (h : regOperand b = .error c) :
    8 ≤ b.toNat ∧ c = .invalidRegister b := by
  rcases byte_cases b with ⟨r, rfl⟩ | hb
  · simp [regOperand_regByte] at h
  · exact ⟨hb, (Except.error.inj ((regOperand_of_ge hb).symm.trans h)).symm⟩

/-! ### commit and advance -/

@[simp] theorem commit_ok (s t : State) : commit s (.ok t) = .next t := rfl

@[simp] theorem commit_error (s : State) (c : FaultCause) : commit s (.error c) = .next (takeFault c s) := rfl

/-- A committed handler always answers a next state: its own, or the fault taken on the state before (R86). -/
theorem commit_cases {s t : State} {r : Except FaultCause State} (h : commit s r = .next t) :
    r = .ok t ∨ ∃ c, r = .error c ∧ t = takeFault c s := by
  cases r with
  | ok u => cases h; exact .inl rfl
  | error c => cases h; exact .inr ⟨c, rfl, rfl⟩

/-- Sequencing in `Except`: a bind that answers does so through its first part. -/
theorem bind_ok {α β : Type} {x : Except FaultCause α} {f : α → Except FaultCause β} {b : β}
    (h : (x >>= f) = .ok b) : ∃ a, x = .ok a ∧ f a = .ok b := by
  cases x with
  | error c => cases h
  | ok a => exact ⟨a, rfl, h⟩

/-- A bind that raises does so in its first part or in its second. -/
theorem bind_error {α β : Type} {x : Except FaultCause α} {f : α → Except FaultCause β} {c : FaultCause}
    (h : (x >>= f) = .error c) : x = .error c ∨ ∃ a, x = .ok a ∧ f a = .error c := by
  cases x with
  | error d => cases h; exact .inl rfl
  | ok a => exact .inr ⟨a, rfl, h⟩

@[simp] theorem ok_bind {α β : Type} (a : α) (f : α → Except FaultCause β) :
    ((.ok a : Except FaultCause α) >>= f) = f a := rfl

@[simp] theorem error_bind {α β : Type} (c : FaultCause) (f : α → Except FaultCause β) :
    ((.error c : Except FaultCause α) >>= f) = .error c := rfl

@[simp] theorem map_ok {α β : Type} (f : α → β) (a : α) : f <$> (.ok a : Except FaultCause α) = .ok (f a) := rfl

@[simp] theorem map_error {α β : Type} (f : α → β) (c : FaultCause) :
    f <$> (.error c : Except FaultCause α) = .error c := rfl

/-- On this hardware the fall-through wraps and raises nothing (R25). -/
theorem advance_hardware (n : Nat) (s : State) :
    advance Config.hardware n s = .ok (s.setPc (s.pc + BitVec.ofNat 8 n)) := by
  simp [advance, Config.hardware, ofInt_toNat_add]

theorem advance_ok {p : Config.Policy} {n : Nat} {s t : State} (h : advance p n s = .ok t) :
    t = s.setPc (s.pc + BitVec.ofNat 8 n) := by
  obtain ⟨pc, hpc, h⟩ := bind_ok h
  cases h
  rw [wrap8_ok hpc, ofInt_toNat_add]

/-! ### The ALU -/

/-- ADD's operation on this hardware: the sum modulo 256, no flag (R111). -/
theorem alu_add_hardware (a b : RegIdx) (s : State) :
    alu Config.hardware .add a b s = .ok (s.setReg a (s.reg a + s.reg b)) := by
  simp [alu, Config.hardware, ofInt_sum]

/-- MUL's operation on this hardware: the product modulo 256, no flag (R111). -/
theorem alu_mul_hardware (a b : RegIdx) (s : State) :
    alu Config.hardware .mul a b s = .ok (s.setReg a (s.reg a * s.reg b)) := by
  simp [alu, Config.hardware, ofInt_product]

/-- CMP's operation under any policy: FL alone (R114). -/
theorem alu_cmp (p : Config.Policy) (a b : RegIdx) (s : State) :
    alu p .cmp a b s = .ok (s.setFl (compareFlags (s.reg a) (s.reg b))) := rfl

/-- The three values CMP can leave in FL (R27). -/
theorem compareFlags_cases (x y : Byte) :
    (x = y ∧ compareFlags x y = flagE) ∨ (x.toNat < y.toNat ∧ compareFlags x y = flagL) ∨
      (y.toNat < x.toNat ∧ compareFlags x y = flagG) := by
  unfold compareFlags
  split_ifs with h₁ h₂
  · exact .inl ⟨h₁, rfl⟩
  · exact .inr (.inl ⟨h₂, rfl⟩)
  · exact .inr (.inr ⟨by have := mt BitVec.eq_of_toNat_eq h₁; omega, rfl⟩)

/-- An ALU instruction with two register operands: the ALU, then 3 bytes on. -/
theorem aluInstr_regs (p : Config.Policy) (tag : AluTag) (a b : RegIdx) (s : State) :
    aluInstr p tag (regByte a) (regByte b) s = (alu p tag a b s >>= advance p 3) := by
  simp [aluInstr, regOperand_regByte]

/-- An ALU instruction whose first operand names no register (R84). -/
theorem aluInstr_bad_a (p : Config.Policy) (tag : AluTag) {a : Byte} (b : Byte) (s : State) (h : 8 ≤ a.toNat) :
    aluInstr p tag a b s = .error (.invalidRegister a) := by
  simp [aluInstr, regOperand_of_ge h]

/-- An ALU instruction whose second operand alone names no register (R84). -/
theorem aluInstr_bad_b (p : Config.Policy) (tag : AluTag) (a : RegIdx) {b : Byte} (s : State) (h : 8 ≤ b.toNat) :
    aluInstr p tag (regByte a) b s = .error (.invalidRegister b) := by
  simp [aluInstr, regOperand_regByte, regOperand_of_ge h]

/-! ### The stack -/

/-- A push on this hardware: SP down by 1 modulo 256, then the byte at the new SP (R135). -/
theorem pushByte_hardware {v : State → Except FaultCause Byte} {s : State} {b : Byte}
    (hv : v (s.setSp (s.sp - 1)) = .ok b) :
    pushByte Config.hardware v s = .ok ((s.setSp (s.sp - 1)).store (s.sp - 1) b) := by
  simp [pushByte, Config.hardware, ofInt_pred] at hv ⊢
  simp [hv]

/-- The end of a pop on this hardware: SP up by 1 modulo 256 (R135). -/
theorem raiseSp_hardware (s : State) : raiseSp Config.hardware s = .ok (s.setSp (s.sp + 1)) := by
  have h := ofInt_toNat_add s.sp 1
  simp only [Nat.cast_one] at h
  simp [raiseSp, Config.hardware, h]

/-! ### Branches -/

theorem branch_taken (p : Config.Policy) (r : RegIdx) (s : State) :
    branch p true (regByte r) s = .ok (s.setPc (s.reg r)) := by
  simp only [branch, regOperand_regByte]
  rfl

theorem branch_not_taken (p : Config.Policy) (r : RegIdx) (s : State) :
    branch p false (regByte r) s = advance p 2 s := by
  simp [branch, regOperand_regByte]

theorem branch_bad (p : Config.Policy) (taken : Bool) {r : Byte} (s : State) (h : 8 ≤ r.toNat) :
    branch p taken r s = .error (.invalidRegister r) := by
  simp [branch, regOperand_of_ge h]

/-! ### Fetch and step -/

/-- On this hardware a fetch raises nothing and wraps (R81). -/
theorem fetch_hardware (s : State) :
    fetch Config.hardware s = .ok { opcode := s.load s.pc, a := s.load (s.pc + 1), b := s.load (s.pc + 2) } := by
  have h₁ := ofInt_toNat_add s.pc 1
  have h₂ := ofInt_toNat_add s.pc 2
  simp only [Nat.cast_one, Nat.cast_ofNat] at h₁ h₂
  simp [fetch, Config.hardware, h₁, h₂]

/-- The meaning of an instruction is its handler under this hardware's policy, committed. -/
theorem exec_eq_commit (i : Instr) (s : State) : exec i s = commit s (handle Config.hardware i s) := by
  cases i <;> rfl

theorem execUnder_hardware : execUnder Config.hardware = exec := by
  funext i s
  exact (exec_eq_commit i s).symm

/-- At this hardware's policy the parametric step is the step. -/
theorem stepUnder_hardware (s : State) : stepUnder Config.hardware s = step s := by
  rw [stepUnder, execUnder_hardware, step]

/-- What a step that answers a next state has done (R85): it was RUNNING, and it took a fetch fault, refused the opcode,
or ran the decoded instruction. -/
theorem stepBy_cases {p : Config.Policy} {run : Instr → State → Host.Outcome State Fault Refusal} {s t : State}
    (h : stepBy p run s = .next t) :
    s.phase = .running ∧
      ((∃ c, fetch p s = .error c ∧ t = takeFault c s) ∨
        ∃ f, fetch p s = .ok f ∧
          ((∃ e, decode f = .error e ∧ t = takeFault (decodeFault e) s) ∨ ∃ i, decode f = .ok i ∧ run i s = .next t)) := by
  unfold stepBy at h
  cases hp : s.phase <;> simp only [hp, noStep, reduceCtorEq] at h
  refine ⟨rfl, ?_⟩
  cases hf : fetch p s with
  | error c => simp only [hf] at h; cases h; exact .inl ⟨c, rfl, rfl⟩
  | ok f =>
    simp only [hf] at h
    refine .inr ⟨f, rfl, ?_⟩
    cases hd : decode f with
    | error e => simp only [hd] at h; cases h; exact .inl ⟨e, rfl, rfl⟩
    | ok i => simp only [hd] at h; exact .inr ⟨i, rfl, h⟩

/-- A step in RUNNING whose fetch passes and whose bytes decode is the run of the decoded instruction. -/
theorem stepBy_decoded {p : Config.Policy} {run : Instr → State → Host.Outcome State Fault Refusal} {s : State}
    {f : Fetched} {i : Instr} (hp : s.phase = .running) (hf : fetch p s = .ok f) (hd : decode f = .ok i) :
    stepBy p run s = run i s := by
  simp [stepBy, hp, noStep, hf, hd]

end Sys2Proof.Machine
end

