-- ==== Sys2Proof/Laws/PerInstr.lean ====
section
/-! SUPPORT. Facts of every instruction as syntax, one lemma per constructor. -/

namespace Sys2Proof.Laws.EncodingShape

/-- The encoding's length is the instruction's, and its first byte is the opcode, whose bits 7:6 count the operand
bytes (30_encoding.md R60, R64, R65). -/
def Statement (i : Instr) : Prop :=
  (encode i).length = instrLength i ∧ (encode i).head? = some (opcodeByte (opcodeOf i)) ∧
    (opcodeByte (opcodeOf i)).toNat / 64 + 1 = instrLength i

/-- Bits 7:6 of every opcode are its length less 1 (R64). -/
theorem opcode_counts_operands (o : Opcode) : (opcodeByte o).toNat / 64 + 1 = formatLength (opcodeFormat o) := by
  cases o <;> rfl

theorem hlt : Statement .hlt := ⟨rfl, rfl, opcode_counts_operands .hlt⟩
theorem ldi (r imm : Byte) : Statement (.ldi r imm) := ⟨rfl, rfl, opcode_counts_operands .ldi⟩
theorem prn (r : Byte) : Statement (.prn r) := ⟨rfl, rfl, opcode_counts_operands .prn⟩
theorem add (a b : Byte) : Statement (.add a b) := ⟨rfl, rfl, opcode_counts_operands .add⟩
theorem mul (a b : Byte) : Statement (.mul a b) := ⟨rfl, rfl, opcode_counts_operands .mul⟩
theorem push (r : Byte) : Statement (.push r) := ⟨rfl, rfl, opcode_counts_operands .push⟩
theorem pop (r : Byte) : Statement (.pop r) := ⟨rfl, rfl, opcode_counts_operands .pop⟩
theorem call (r : Byte) : Statement (.call r) := ⟨rfl, rfl, opcode_counts_operands .call⟩
theorem ret : Statement .ret := ⟨rfl, rfl, opcode_counts_operands .ret⟩
theorem cmp (a b : Byte) : Statement (.cmp a b) := ⟨rfl, rfl, opcode_counts_operands .cmp⟩
theorem jmp (r : Byte) : Statement (.jmp r) := ⟨rfl, rfl, opcode_counts_operands .jmp⟩
theorem jeq (r : Byte) : Statement (.jeq r) := ⟨rfl, rfl, opcode_counts_operands .jeq⟩
theorem jne (r : Byte) : Statement (.jne r) := ⟨rfl, rfl, opcode_counts_operands .jne⟩

end Sys2Proof.Laws.EncodingShape
end

