-- ==== Sys2Proof/Laws/Step.lean ====
section
/-! SUPPORT. Everything a handler and a step can do, said once: which fields a handler that completes may change, which
causes a handler may raise, and the cases of a step that answers a next state. Invariants and frames follow from these
without unfolding the step. -/

namespace Sys2Proof.Machine

/-- The fields a completed handler may change, beside registers and PC: the fault record never; the phase by HLT alone;
FL by CMP alone; the output by PRN alone; memory by one write at most. -/
structure HandlerEffect (i : Instr) (s t : State) : Prop where
  record : t.faultRecord = s.faultRecord
  phase  : t.phase = if i = .hlt then .halted else s.phase
  flags  : t.fl = s.fl ∨ ∃ a b, i = .cmp a b ∧ ∃ x y, t.fl = compareFlags x y
  output : t.output = s.output ∨ ∃ a v, i = .prn a ∧ t.output = s.output ++ [v]
  memory : t.mem = s.mem ∨ ∃ a v, t.mem = s.mem.write a v

variable {p : Config.Policy} {s t u : State} {c : FaultCause}

/-- An ALU instruction that completes has run the ALU on two registers and moved on by 3. -/
theorem aluInstr_ok {tag : AluTag} {a b : Byte} (h : aluInstr p tag a b s = .ok t) :
    ∃ ra rb u, regOperand a = .ok ra ∧ regOperand b = .ok rb ∧ alu p tag ra rb s = .ok u ∧ t = u.setPc (u.pc + 3) := by
  obtain ⟨ra, ha, h⟩ := bind_ok h
  obtain ⟨rb, hb, h⟩ := bind_ok h
  obtain ⟨u, hu, h⟩ := bind_ok h
  exact ⟨ra, rb, u, ha, hb, hu, advance_ok h⟩

/-- ADD and MUL in the ALU write one register. -/
theorem alu_arith_ok {tag : AluTag} {a b : RegIdx} (htag : tag = .add ∨ tag = .mul) (h : alu p tag a b s = .ok u) :
    ∃ v, u = s.setReg a v := by
  rcases htag with rfl | rfl <;> obtain ⟨v, -, h⟩ := bind_ok h <;> cases h <;> exact ⟨v, rfl⟩

/-- A push writes SP and one byte at the new SP. -/
theorem pushByte_ok {v : State → Except FaultCause Byte} (h : pushByte p v s = .ok t) :
    ∃ sp b, t = (s.setSp sp).store (s.setSp sp).sp b := by
  obtain ⟨sp, -, h⟩ := bind_ok h
  obtain ⟨b, -, h⟩ := bind_ok h
  cases h
  exact ⟨sp, b, rfl⟩

/-- The end of a pop writes SP. -/
theorem raiseSp_ok (h : raiseSp p s = .ok t) : ∃ sp, t = s.setSp sp := by
  obtain ⟨sp, -, h⟩ := bind_ok h
  cases h
  exact ⟨sp, rfl⟩

/-- A branch writes the PC. -/
theorem branch_ok {taken : Bool} {r : Byte} (h : branch p taken r s = .ok t) : ∃ pc, t = s.setPc pc := by
  obtain ⟨r, -, h⟩ := bind_ok h
  split at h
  · cases h; exact ⟨_, rfl⟩
  · exact ⟨_, advance_ok h⟩

/-- What a handler that completes can have changed, under any policy. -/
theorem handle_ok {i : Instr} (h : handle p i s = .ok t) : HandlerEffect i s t := by
  cases i
  case hlt =>
    obtain ⟨u, hu, h⟩ := bind_ok h
    cases h
    rw [advance_ok hu]
    exact ⟨rfl, rfl, .inl rfl, .inl rfl, .inl rfl⟩
  case ldi =>
    obtain ⟨r, -, h⟩ := bind_ok h
    rw [advance_ok h]
    exact ⟨rfl, rfl, .inl rfl, .inl rfl, .inl rfl⟩
  case prn =>
    obtain ⟨r, -, h⟩ := bind_ok h
    rw [advance_ok h]
    exact ⟨rfl, rfl, .inl rfl, .inr ⟨_, _, rfl, rfl⟩, .inl rfl⟩
  case add =>
    obtain ⟨_, _, u, -, -, hu, rfl⟩ := aluInstr_ok h
    obtain ⟨v, rfl⟩ := alu_arith_ok (.inl rfl) hu
    exact ⟨rfl, rfl, .inl rfl, .inl rfl, .inl rfl⟩
  case mul =>
    obtain ⟨_, _, u, -, -, hu, rfl⟩ := aluInstr_ok h
    obtain ⟨v, rfl⟩ := alu_arith_ok (.inr rfl) hu
    exact ⟨rfl, rfl, .inl rfl, .inl rfl, .inl rfl⟩
  case cmp =>
    obtain ⟨_, _, u, -, -, hu, rfl⟩ := aluInstr_ok h
    rw [alu_cmp] at hu
    cases hu
    exact ⟨rfl, rfl, .inr ⟨_, _, rfl, _, _, rfl⟩, .inl rfl, .inl rfl⟩
  case push =>
    obtain ⟨r, -, h⟩ := bind_ok h
    split at h
    · obtain ⟨u, hu, h⟩ := bind_ok h
      obtain ⟨sp, b, rfl⟩ := pushByte_ok hu
      rw [advance_ok h]
      exact ⟨rfl, rfl, .inl rfl, .inl rfl, .inr ⟨_, _, rfl⟩⟩
    · obtain ⟨v, -, h⟩ := bind_ok h
      rw [advance_ok h]
      exact ⟨rfl, rfl, .inl rfl, .inl rfl, .inr ⟨_, _, rfl⟩⟩
  case pop =>
    obtain ⟨r, -, h⟩ := bind_ok h
    obtain ⟨u, hu, h⟩ := bind_ok h
    obtain ⟨sp, rfl⟩ := raiseSp_ok hu
    rw [advance_ok h]
    exact ⟨rfl, rfl, .inl rfl, .inl rfl, .inl rfl⟩
  case call =>
    obtain ⟨r, -, h⟩ := bind_ok h
    obtain ⟨u, hu, h⟩ := bind_ok h
    obtain ⟨sp, b, rfl⟩ := pushByte_ok hu
    cases h
    exact ⟨rfl, rfl, .inl rfl, .inl rfl, .inr ⟨_, _, rfl⟩⟩
  case ret =>
    obtain ⟨sp, rfl⟩ := raiseSp_ok h
    exact ⟨rfl, rfl, .inl rfl, .inl rfl, .inl rfl⟩
  all_goals
    obtain ⟨pc, rfl⟩ := branch_ok h
    exact ⟨rfl, rfl, .inl rfl, .inl rfl, .inl rfl⟩

/-! ### What a handler can raise -/

/-- An overflow raised under `Fault`, with a value out of range. -/
def RaisesOverflow (p : Config.Policy) (c : FaultCause) : Prop :=
  p.overflow = .fault ∧ ∃ v : Int, (v < 0 ∨ 255 < v) ∧ c = .overflow v

theorem wrap8_raises {v : Int} (h : wrap8 p.overflow v = .error c) : RaisesOverflow p c := by
  obtain ⟨hp, rfl⟩ := wrap8_error h
  refine ⟨hp, v, ?_, rfl⟩
  by_contra hv
  rw [hp, wrap8_fault_inside (by omega) (by omega)] at h
  cases h

theorem advance_raises {n : Nat} (h : advance p n s = .error c) : RaisesOverflow p c := by
  rcases bind_error h with h | ⟨_, -, h⟩
  · exact wrap8_raises h
  · cases h

theorem pushByte_raises {v : State → Except FaultCause Byte} (h : pushByte p v s = .error c) :
    RaisesOverflow p c ∨ ∃ u, v u = .error c := by
  rcases bind_error h with h | ⟨_, -, h⟩
  · exact .inl (wrap8_raises h)
  · rcases bind_error h with h | ⟨_, -, h⟩
    · exact .inr ⟨_, h⟩
    · cases h

theorem raiseSp_raises (h : raiseSp p s = .error c) : RaisesOverflow p c := by
  rcases bind_error h with h | ⟨_, -, h⟩
  · exact wrap8_raises h
  · cases h

/-- A handler of one register operand raises for that operand, or raises in what follows. -/
theorem one_operand_raises {r : Byte} {f : RegIdx → Except FaultCause State} (h : (regOperand r >>= f) = .error c) :
    (8 ≤ r.toNat ∧ c = .invalidRegister r) ∨ ∃ q, f q = .error c := by
  rcases bind_error h with h | ⟨q, -, h⟩
  · exact .inl (regOperand_error h)
  · exact .inr ⟨q, h⟩

theorem branch_raises {taken : Bool} {r : Byte} (h : branch p taken r s = .error c) :
    (8 ≤ r.toNat ∧ c = .invalidRegister r) ∨ RaisesOverflow p c := by
  rcases one_operand_raises h with h | ⟨q, h⟩
  · exact .inl h
  · split at h
    · cases h
    · exact .inr (advance_raises h)

theorem aluInstr_raises {tag : AluTag} {a b : Byte} (htag : tag = .add ∨ tag = .mul ∨ tag = .cmp)
    (h : aluInstr p tag a b s = .error c) :
    (8 ≤ a.toNat ∧ c = .invalidRegister a) ∨ (8 ≤ b.toNat ∧ c = .invalidRegister b) ∨ RaisesOverflow p c := by
  rcases one_operand_raises h with h | ⟨ra, h⟩
  · exact .inl h
  · rcases one_operand_raises h with h | ⟨rb, h⟩
    · exact .inr (.inl h)
    · refine .inr (.inr ?_)
      rcases bind_error h with h | ⟨_, -, h⟩
      · rcases htag with rfl | rfl | rfl
        · rcases bind_error h with h | ⟨_, -, h⟩
          · exact wrap8_raises h
          · cases h
        · rcases bind_error h with h | ⟨_, -, h⟩
          · exact wrap8_raises h
          · cases h
        · cases h
      · exact advance_raises h

/-- What a handler can raise, under any policy: `InvalidRegister` for one of its operand bytes, and then the
instruction is not well formed; or an overflow, under `Fault`. -/
theorem handle_error {i : Instr} (h : handle p i s = .error c) :
    (∃ b ∈ operandBytes i, 8 ≤ b.toNat ∧ c = .invalidRegister b ∧ i.wellFormed = false) ∨ RaisesOverflow p c := by
  have one {r : Byte} (hr : 8 ≤ r.toNat ∧ c = .invalidRegister r) :
      ∃ b ∈ [r], 8 ≤ b.toNat ∧ c = .invalidRegister b ∧ namesRegister r = false :=
    ⟨r, by simp, hr.1, hr.2, by simpa [namesRegister] using hr.1⟩
  have two {tag : AluTag} {a b : Byte} (htag : tag = .add ∨ tag = .mul ∨ tag = .cmp)
      (h : aluInstr p tag a b s = .error c) :
      (∃ x ∈ [a, b], 8 ≤ x.toNat ∧ c = .invalidRegister x ∧ (namesRegister a && namesRegister b) = false) ∨
        RaisesOverflow p c := by
    rcases aluInstr_raises htag h with h | h | h
    · exact .inl ⟨a, by simp, h.1, h.2, by simp [namesRegister, Nat.not_lt.mpr h.1]⟩
    · exact .inl ⟨b, by simp, h.1, h.2, by simp [namesRegister, Nat.not_lt.mpr h.1]⟩
    · exact .inr h
  cases i
  case hlt =>
    rcases bind_error h with h | ⟨_, -, h⟩
    · exact .inr (advance_raises h)
    · cases h
  case ldi r imm =>
    rcases one_operand_raises h with h | ⟨_, h⟩
    · exact .inl ⟨r, by simp [operandBytes], h.1, h.2, by simpa [Instr.wellFormed, namesRegister] using h.1⟩
    · exact .inr (advance_raises h)
  case prn =>
    rcases one_operand_raises h with h | ⟨_, h⟩
    · exact .inl (one h)
    · exact .inr (advance_raises h)
  case add => exact two (.inl rfl) h
  case mul => exact two (.inr (.inl rfl)) h
  case cmp => exact two (.inr (.inr rfl)) h
  case push =>
    rcases one_operand_raises h with h | ⟨_, h⟩
    · exact .inl (one h)
    · right
      split at h
      · rcases bind_error h with h | ⟨_, -, h⟩
        · rcases pushByte_raises h with h | ⟨_, h⟩
          · exact h
          · cases h
        · exact advance_raises h
      · rcases bind_error h with h | ⟨_, -, h⟩
        · exact wrap8_raises h
        · exact advance_raises h
  case pop =>
    rcases one_operand_raises h with h | ⟨_, h⟩
    · exact .inl (one h)
    · right
      rcases bind_error h with h | ⟨_, -, h⟩
      · exact raiseSp_raises h
      · exact advance_raises h
  case call =>
    rcases one_operand_raises h with h | ⟨_, h⟩
    · exact .inl (one h)
    · right
      rcases bind_error h with h | ⟨_, -, h⟩
      · rcases pushByte_raises h with h | ⟨_, h⟩
        · exact h
        · exact wrap8_raises h
      · cases h
  case ret => exact .inr (raiseSp_raises h)
  all_goals exact (branch_raises h).imp one id

/-! ### The step -/

/-- A byte is in the opcode list exactly when the table finds it. -/
theorem mem_opcodeBytes (b : Byte) : b ∈ opcodeBytes ↔ opcodeOfByte b ≠ none := by
  constructor
  · intro h
    simp only [opcodeBytes, List.mem_cons, List.not_mem_nil, or_false] at h
    rcases h with rfl | rfl | rfl | rfl | rfl | rfl | rfl | rfl | rfl | rfl | rfl | rfl | rfl <;> decide
  · intro h
    obtain ⟨o, ho⟩ := Option.ne_none_iff_exists'.mp h
    rw [opcodeOfByte_eq_some.mp ho]
    cases o <;> decide

/-- A fetch that passes delivers the bytes at PC, PC + 1 and PC + 2 modulo 256, under any policy. -/
theorem fetch_ok {f : Fetched} (h : fetch p s = .ok f) :
    f = { opcode := s.load s.pc, a := s.load (s.pc + 1), b := s.load (s.pc + 2) } := by
  obtain ⟨a₁, h₁, h⟩ := bind_ok h
  obtain ⟨a₂, h₂, h⟩ := bind_ok h
  cases h
  have e₁ : a₁ = s.pc + 1 := (wrap8_ok h₁).trans (ofInt_toNat_add s.pc 1)
  have e₂ : a₂ = s.pc + 2 := (wrap8_ok h₂).trans (ofInt_toNat_add s.pc 2)
  rw [e₁, e₂]

/-- A fetch raises an overflow alone, under `Fault`. -/
theorem fetch_raises (h : fetch p s = .error c) : RaisesOverflow p c := by
  rcases bind_error h with h | ⟨_, -, h⟩
  · exact wrap8_raises h
  · rcases bind_error h with h | ⟨_, -, h⟩
    · exact wrap8_raises h
    · cases h

/-- The causes a step can record: an overflow under `Fault`, an opcode outside the table, or a register operand of 8 or
more after an opcode of the table. -/
def StepRaises (p : Config.Policy) (s : State) (c : FaultCause) : Prop :=
  RaisesOverflow p c ∨ (c = .invalidOpcode ∧ opcodeOfByte (s.load s.pc) = none) ∨
    ∃ b : Byte, 8 ≤ b.toNat ∧ c = .invalidRegister b ∧ opcodeOfByte (s.load s.pc) ≠ none ∧
      (b = s.load (s.pc + 1) ∨ b = s.load (s.pc + 2))

/-- What a step that answers a next state has done, under any policy: it was RUNNING, and it took a fault on the state
before, or completed the handler of the instruction at PC. -/
theorem stepUnder_cases (h : stepUnder p s = .next t) :
    s.phase = .running ∧
      ((∃ c, StepRaises p s c ∧ t = takeFault c s) ∨
        ∃ o, s.load s.pc = opcodeByte o ∧ handle p (instrOf o (s.load (s.pc + 1)) (s.load (s.pc + 2))) s = .ok t) := by
  obtain ⟨hp, ⟨c, hc, ht⟩ | ⟨f, hf, h⟩⟩ := stepBy_cases h
  · exact ⟨hp, .inl ⟨c, .inl (fetch_raises hc), ht⟩⟩
  refine ⟨hp, ?_⟩
  obtain rfl := fetch_ok hf
  rcases decode_cases { opcode := s.load s.pc, a := s.load (s.pc + 1), b := s.load (s.pc + 2) } with
    ⟨o, ho, hd⟩ | ⟨ho, hd⟩
  · rcases h with ⟨e, he, -⟩ | ⟨i, hi, h⟩
    · exact nomatch hd.symm.trans he
    · obtain rfl := Except.ok.inj (hd.symm.trans hi)
      rcases commit_cases h with h | ⟨c, hc, ht⟩
      · exact .inr ⟨o, ho, h⟩
      · refine .inl ⟨c, ?_, ht⟩
        rcases handle_error hc with ⟨b, hb, h8, rfl, -⟩ | hov
        · have hfound : opcodeOfByte (s.load s.pc) ≠ none := by
            rw [show s.load s.pc = opcodeByte o from ho, opcodeOfByte_opcodeByte]
            exact Option.some_ne_none o
          refine .inr (.inr ⟨b, h8, rfl, hfound, ?_⟩)
          cases o <;> simp [operandBytes, instrOf] at hb <;> tauto
        · exact .inl hov
  · rcases h with ⟨e, he, ht⟩ | ⟨i, hi, -⟩
    · obtain rfl := Except.error.inj (hd.symm.trans he)
      exact .inl ⟨.invalidOpcode, .inr (.inl ⟨rfl, ho⟩), ht⟩
    · exact nomatch hd.symm.trans hi

/-- What a step of this hardware that answers a next state has done. -/
theorem step_cases (h : step s = .next t) :
    s.phase = .running ∧
      ((∃ c, StepRaises Config.hardware s c ∧ t = takeFault c s) ∨
        ∃ o, s.load s.pc = opcodeByte o ∧
          handle Config.hardware (instrOf o (s.load (s.pc + 1)) (s.load (s.pc + 2))) s = .ok t) :=
  stepUnder_cases ((stepUnder_hardware s).trans h)

/-- On this hardware no overflow is raised. -/
theorem not_raisesOverflow_hardware : ¬ RaisesOverflow Config.hardware c := fun h => nomatch h.1

end Sys2Proof.Machine
end

