-- ==== Sys2Proof/Tests/Slice0.lean ====
section
/-! SUPPORT. The model's own tests: words written out from the spec's encodings, the vectors of 95_test_vectors.md (named
in each comment), and for every obligation with hypotheses a state and operands that meet them. -/

namespace Sys2Proof.Machine.Tests

/-! ### Helpers -/

/-- A RUNNING state with `code` at `pc`, the registers set in order, and the bytes of `data` stored. -/
def st (pc : Byte) (code : List Byte) (regs : List (RegIdx × Byte)) (data : List (Byte × Byte)) : State :=
  let s : State := { State.reset with pc := pc, phase := .running }
  let s := code.zipIdx.foldl (fun s c => s.store (pc + BitVec.ofNat 8 c.2) c.1) s
  let s := regs.foldl (fun s r => s.setReg r.1 r.2) s
  data.foldl (fun s d => s.store d.1 d.2) s

/-- The next state, or the same state where there is none. -/
def goOn : Host.Outcome State Fault Refusal → State → State
  | .next t, _ => t
  | _, s => s

/-- The state after one step of this hardware. -/
def after (s : State) : State := goOn (step s) s

/-- The state after one step under a policy. -/
def afterUnder (p : Config.Policy) (s : State) : State := goOn (stepUnder p s) s

/-- The vectors' notation FAULTED(kind, pc, opcode, detail). -/
def faultedAs (t : State) (cause : FaultCause) (pc opcode : Byte) : Bool :=
  t.phase == .faulted && t.faultRecord == some { cause := cause, pc := pc, opcode := opcode }

/-! ### Well-formedness -/

/-- A register operand of 8 is refused in each place a format has one; LDI's immediate is not a register (R67). -/
theorem test_wellFormed_refuses :
    Instr.wellFormed (.ldi 8 0) = false ∧ Instr.wellFormed (.prn 8) = false ∧ Instr.wellFormed (.add 8 0) = false ∧
    Instr.wellFormed (.add 0 8) = false ∧ Instr.wellFormed (.mul 255 0) = false ∧ Instr.wellFormed (.cmp 0 255) = false ∧
    Instr.wellFormed (.push 8) = false ∧ Instr.wellFormed (.pop 8) = false ∧ Instr.wellFormed (.call 8) = false ∧
    Instr.wellFormed (.jmp 8) = false ∧ Instr.wellFormed (.jeq 8) = false ∧ Instr.wellFormed (.jne 8) = false := by decide

theorem test_wellFormed_accepts :
    Instr.wellFormed (.ldi 7 255) = true ∧ Instr.wellFormed (.cmp 7 7) = true ∧ Instr.wellFormed .hlt = true := by decide

/-! ### Decoding: each word from the binary column of R63, operands from the rule's example -/

theorem test_decode_hlt : decode ⟨0b00000001, 0xFF, 0xFF⟩ = .ok .hlt := by decide
theorem test_decode_ldi : decode ⟨0b10000010, 0b00000000, 0b00001000⟩ = .ok (.ldi 0 8) := by decide
theorem test_decode_prn : decode ⟨0b01000111, 0b00000000, 0xFF⟩ = .ok (.prn 0) := by decide
theorem test_decode_add : decode ⟨0b10100000, 0b00000000, 0b00000001⟩ = .ok (.add 0 1) := by decide
theorem test_decode_mul : decode ⟨0b10100010, 0b00000000, 0b00000001⟩ = .ok (.mul 0 1) := by decide
theorem test_decode_push : decode ⟨0b01000101, 0b00000111, 0x09⟩ = .ok (.push 7) := by decide
theorem test_decode_pop : decode ⟨0b01000110, 0b00000001, 0x00⟩ = .ok (.pop 1) := by decide
theorem test_decode_call : decode ⟨0b01010000, 0b00000001, 0x00⟩ = .ok (.call 1) := by decide
theorem test_decode_ret : decode ⟨0b00010001, 0x08, 0x08⟩ = .ok .ret := by decide
theorem test_decode_cmp : decode ⟨0b10100111, 0b00000000, 0b00000001⟩ = .ok (.cmp 0 1) := by decide
theorem test_decode_jmp : decode ⟨0b01010100, 0b00000010, 0x00⟩ = .ok (.jmp 2) := by decide
theorem test_decode_jeq : decode ⟨0b01010101, 0b00000011, 0x00⟩ = .ok (.jeq 3) := by decide
theorem test_decode_jne : decode ⟨0b01010110, 0b00000011, 0x00⟩ = .ok (.jne 3) := by decide

/-- 0x00 (S2), 0x02 (E4) and 0xA1, which fits the bit grouping but is not in the table (E5). -/
theorem test_decode_illegal :
    decode ⟨0x00, 0, 0⟩ = .error (.invalidOpcode 0x00) ∧ decode ⟨0x02, 0, 0⟩ = .error (.invalidOpcode 0x02) ∧
    decode ⟨0xA1, 0, 0⟩ = .error (.invalidOpcode 0xA1) := by decide

/-- The bytes of program P1 (95_test_vectors.md): the first instruction is LDI R0,8, and what follows it is left. -/
theorem test_decode_stream :
    decodeBytes [0x82, 0x00, 0x08, 0x82, 0x01] = .ok (.ldi 0 8, [0x82, 0x01]) ∧
    decodeBytes [0x82, 0x00] = .error .truncated := by decide

theorem test_decode_table_word :
    decodeTableWord 8 0x82 = some (.ldi 0 0) ∧ decodeTableWord 24 0x08_01_82 = some (.ldi 1 8) ∧
    decodeTableWord 8 0x00 = none := by decide

/-- The example text of R69. -/
theorem test_asm_text : asmText (.ldi 0 8) = "LDI R0,8" ∧ asmText (.mul 0 1) = "MUL R0,R1" := by decide

/-- A word placed at reset is the first instruction that runs (LDI R1,8). -/
theorem test_withFetchWord :
    (after (State.reset.withFetchWord 24 0x08_01_82)).reg 1 = 8 ∧
    (after (State.reset.withFetchWord 24 0x08_01_82)).pc = 3 := by decide

/-! ### Vectors of 95_test_vectors.md -/

/-- E2: HLT at PC FF wraps the PC. -/
theorem test_hlt_wraps : (after (st 0xFF [0x01] [] [])).pc = 0 ∧ (after (st 0xFF [0x01] [] [])).phase = .halted := by decide
/-- E6: ignored bytes are never checked. -/
theorem test_hlt_ignores_operands : (after (st 0 [0x01, 0xFF, 0xFF] [] [])).phase = .halted := by decide
/-- E8: operand b comes from address 0 and the PC wraps to 1. -/
theorem test_ldi_wraps :
    (after (st 0xFE [0x82, 0x00, 0x2A] [] [])).reg 0 = 42 ∧ (after (st 0xFE [0x82, 0x00, 0x2A] [] [])).pc = 1 := by decide
/-- I6: FAULTED(InvalidRegister, 0, 82, 8). -/
theorem test_ldi_bad_register :
    faultedAs (after (st 0 [0x82, 0x08, 0x01] [] [])) (.invalidRegister 8) 0 0x82 = true := by decide
/-- E7: byte 2 ignored, output [7], PC 2. -/
theorem test_prn_emits : (after (st 0 [0x47, 0x00, 0xFF] [(0, 7)] [])).output = [7] ∧
    (after (st 0 [0x47, 0x00, 0xFF] [(0, 7)] [])).pc = 2 := by decide
/-- I7: FAULTED(InvalidRegister, 0, 47, 128). -/
theorem test_prn_bad_register :
    faultedAs (after (st 0 [0x47, 0x80] [] [])) (.invalidRegister 128) 0 0x47 = true := by decide
/-- A2: 200 + 100 gives 44. -/
theorem test_add_wraps : (after (st 0 [0xA0, 0, 1] [(0, 200), (1, 100)] [])).reg 0 = 44 := by decide
/-- A18: ADD writes no flag. -/
theorem test_add_keeps_flags : (after ((st 0 [0xA0, 0, 1] [(0, 1), (1, 2)] []).setFl 1)).reg 0 = 3 ∧
    (after ((st 0 [0xA0, 0, 1] [(0, 1), (1, 2)] []).setFl 1)).fl = 1 := by decide
/-- A6: 16 * 16 gives 0. -/
theorem test_mul_low_byte : (after (st 0 [0xA2, 0, 1] [(0, 16), (1, 16)] [])).reg 0 = 0 := by decide
/-- A7: 15 * 17 gives 255. -/
theorem test_mul_largest : (after (st 0 [0xA2, 0, 1] [(0, 15), (1, 17)] [])).reg 0 = 255 := by decide
/-- A12 and A13: the comparison is unsigned. -/
theorem test_cmp_unsigned : (after (st 0 [0xA7, 0, 1] [(0, 0), (1, 255)] [])).fl = 0b00000100 ∧
    (after (st 0 [0xA7, 0, 1] [(0, 255), (1, 0)] [])).fl = 0b00000010 := by decide
/-- A17: byte 1 is checked first. -/
theorem test_cmp_checks_byte1_first :
    faultedAs (after (st 0 [0xA7, 0x09, 0x0A] [] [])) (.invalidRegister 9) 0 0xA7 = true := by decide
/-- K2: a push at SP = 0 writes address FF. -/
theorem test_push_wraps : (after (st 0 [0x45, 0] [(0, 42)] [])).reg 7 = 0xFF ∧
    (after (st 0 [0x45, 0] [(0, 42)] [])).load 0xFF = 42 := by decide
/-- K3: PUSH R7 stores the decremented SP. -/
theorem test_push_sp : (after (st 0 [0x45, 7] [(7, 0xF4)] [])).load 0xF3 = 0xF3 := by decide
/-- K5: the popped cell keeps its byte. -/
theorem test_pop_keeps_cell : (after (st 0 [0x46, 1] [(7, 0xF3)] [(0xF3, 42)])).reg 1 = 42 ∧
    (after (st 0 [0x46, 1] [(7, 0xF3)] [(0xF3, 42)])).load 0xF3 = 42 := by decide
/-- K7's second step: POP R7 of 42 leaves SP = 43. -/
theorem test_pop_sp : (after (st 2 [0x46, 7] [(7, 0xF3)] [(0xF3, 42)])).reg 7 = 43 := by decide
/-- K10: CALL R7 jumps to the decremented SP, which holds the return address 2. -/
theorem test_call_sp : (after (st 0 [0x50, 7] [(7, 0xF4)] [])).pc = 0xF3 ∧
    (after (st 0 [0x50, 7] [(7, 0xF4)] [])).load 0xF3 = 2 := by decide
/-- K11: the return address wraps. -/
theorem test_call_link_wraps : (after (st 0xFE [0x50, 1] [(7, 0xF4), (1, 0x20)] [(0xF3, 9)])).load 0xF3 = 0 ∧
    (after (st 0xFE [0x50, 1] [(7, 0xF4), (1, 0x20)] [])).pc = 0x20 := by decide
/-- K12: RET pops the return address. -/
theorem test_ret : (after (st 0 [0x11] [(7, 0xF3)] [(0xF3, 8)])).pc = 8 ∧
    (after (st 0 [0x11] [(7, 0xF3)] [(0xF3, 8)])).reg 7 = 0xF4 := by decide
/-- K13: RET at SP = FF leaves SP = 0. -/
theorem test_ret_wraps : (after (st 0 [0x11] [(7, 0xFF)] [(0xFF, 0x10)])).reg 7 = 0 := by decide
/-- B1: JMP. -/
theorem test_jmp : (after (st 0 [0x54, 2] [(2, 40)] [])).pc = 40 := by decide
/-- B3 and B4: JEQ taken on E, not on L. -/
theorem test_jeq : (after ((st 20 [0x55, 3] [(3, 12)] []).setFl 1)).pc = 12 ∧
    (after ((st 20 [0x55, 3] [(3, 12)] []).setFl 4)).pc = 22 := by decide
/-- B10: the register is checked even when the branch is not taken. -/
theorem test_jeq_bad_register :
    faultedAs (after (st 0 [0x55, 9] [] [])) (.invalidRegister 9) 0 0x55 = true := by decide
/-- B6 and B8: JNE taken on G and before any CMP. -/
theorem test_jne : (after ((st 20 [0x56, 3] [(3, 12)] []).setFl 2)).pc = 12 ∧
    (after (st 0 [0x56, 3] [(3, 12)] [])).pc = 12 := by decide
/-- B11: the fall-through of JNE wraps. -/
theorem test_jne_wraps : (after ((st 0xFE [0x56, 0] [] []).setFl 1)).pc = 0 := by decide

/-- S2: an empty image, run, faults at once with InvalidOpcode at PC 0, opcode 00. -/
theorem test_empty_image :
    faultedAs (after (goOn (hostRun (goOn (hostLoad [] State.reset) State.reset)) State.reset)) .invalidOpcode 0 0 = true := by
  decide

/-- P5's third step and R51: PUSH writes 01 over the next opcode, and the snapshot shows the new byte. -/
theorem test_push_over_code :
    (hostSnapshot (after (st 6 [0x45, 0, 0x47, 0, 0x01] [(7, 9), (0, 1)] []))).bytes[0] = 0x01 := by decide

/-! ### Vectors under the other policies -/

/-- E9: FAULTED(Overflow, FE, 82, 256). -/
theorem test_fault_policy_fetch :
    faultedAs (afterUnder ⟨.fault, .conventional⟩ (st 0xFE [0x82, 0, 0x2A] [] [])) (.overflow 256) 0xFE 0x82 = true := by
  decide
/-- A2 with Fault: FAULTED(Overflow, 0, A0, 300). -/
theorem test_fault_policy_add :
    faultedAs (afterUnder ⟨.fault, .conventional⟩ (st 0 [0xA0, 0, 1] [(0, 200), (1, 100)] [])) (.overflow 300) 0 0xA0 = true := by
  decide
/-- K8 with Fault: FAULTED(Overflow, 0, 46, 256) and R1 stays 0. -/
theorem test_fault_policy_pop :
    faultedAs (afterUnder ⟨.fault, .conventional⟩ (st 0 [0x46, 1] [(7, 0xFF)] [(0xFF, 9)])) (.overflow 256) 0 0x46 = true ∧
    (afterUnder ⟨.fault, .conventional⟩ (st 0 [0x46, 1] [(7, 0xFF)] [(0xFF, 9)])).reg 1 = 0 := by decide
/-- K4: PUSH under SourceQuirk. -/
theorem test_source_quirk_push :
    (afterUnder ⟨.wrap, .sourceQuirk⟩ (st 0 [0x45, 0] [(7, 0xF4), (0, 42)] [])).load 0xF4 = 41 ∧
    (afterUnder ⟨.wrap, .sourceQuirk⟩ (st 0 [0x45, 0] [(7, 0xF4), (0, 42)] [])).reg 7 = 0xF4 := by decide

/-! ### Witnesses: the hypotheses of each obligation are met -/

/-- A RUNNING state at PC 0 whose memory is all 0. -/
def zero : State := st 0 [] [] []

theorem witness_StepRunsDecodedInstruction :
    (st 0 [0x82, 7, 9] [] []).phase = .running ∧
    decode ⟨(st 0 [0x82, 7, 9] [] []).load 0, (st 0 [0x82, 7, 9] [] []).load 1, (st 0 [0x82, 7, 9] [] []).load 2⟩ =
      .ok (.ldi 7 9) := by decide

theorem witness_StepRunsEncodedInstruction :
    (st 255 [0x50, 1] [] []).phase = .running ∧
    ∀ (k : Nat) (h : k < (encode (.call 1)).length),
      (st 255 [0x50, 1] [] []).load ((st 255 [0x50, 1] [] []).pc + BitVec.ofNat 8 k) = (encode (.call 1))[k] := by decide

theorem witness_FetchReadsThreeBytes :
    (st 254 [] [] []).pc = 254 ∧ (st 255 [] [] []).pc = 255 ∧ (st 253 [] [] []).pc.toNat ≤ 253 ∧
    (st 254 [] [] []).phase = .running ∧ 254 ≤ (st 254 [] [] []).pc.toNat := by decide

theorem witness_IllegalOpcodeFaults :
    (st 9 [0xA1] [] []).phase = .running ∧ (st 9 [0xA1] [] []).load 9 ∉ opcodeBytes ∧
    zero.phase = .running ∧ zero.pc = 0 ∧ zero.mem = [] ∧ ∀ a, zero.load a = 0 :=
  ⟨by decide, by decide, by decide, by decide, by decide, fun _ => rfl⟩

theorem witness_StepExistsExactlyWhenRunning :
    zero.phase = .running ∧ State.reset.phase = .load ∧ (after (st 0 [0x01] [] [])).phase = .halted ∧
    (after zero).phase = .faulted := by decide

theorem witness_PhaseLeavesRunningOnlyByHaltOrFault :
    (∃ t, step (st 0 [0x01] [] []) = .next t) ∧ (∃ t, step (st 0 [0x54, 0] [] []) = .next t) :=
  ⟨⟨_, rfl⟩, ⟨_, rfl⟩⟩

theorem witness_RunEndsByHaltOrFault :
    (∃ t, step (st 0 [0x01] [] []) = .next t) ∧ (∃ t, step zero = .next t ∧ abnormalEnd t = true) ∧
    zero.phase ≠ .load := ⟨⟨_, rfl⟩, ⟨_, rfl, by decide⟩, by decide⟩

theorem witness_TakenFaultRecordsAndStops : step zero = .next (after zero) ∧ (after zero).phase = .faulted :=
  ⟨rfl, by decide⟩

theorem witness_RaisingStepUndoesItsWrites :
    ∃ t, stepUnder ⟨.fault, .conventional⟩ (st 0 [0x46, 1] [(7, 0xFF)] [(0xFF, 9)]) = .next t ∧ t.phase = .faulted :=
  ⟨_, rfl, by decide⟩

theorem witness_OnlyTwoFaultKindsUnderWrap :
    ∃ t, stepUnder ⟨.wrap, .sourceQuirk⟩ (st 0 [0x45, 8] [] []) = .next t ∧ t.phase = .faulted := ⟨_, rfl, by decide⟩

/-- Each clause of the priority: PC 254 under Fault; PC 253 under Fault and PC 255 under Wrap for the rest. -/
theorem witness_FirstFaultInOrderIsTaken :
    (st 254 [0x00] [] []).phase = .running ∧ 254 ≤ (st 254 [0x00] [] []).pc.toNat ∧
    (st 253 [0x00] [] []).pc.toNat ≤ 253 ∧ opcodeOfByte ((st 253 [0x00] [] []).load 253) = none ∧
    opcodeOfByte ((st 255 [0x82, 8] [] []).load 255) = some .ldi ∧ 8 ≤ ((st 255 [0x82, 8] [] []).load 0).toNat ∧
    opcodeOfByte ((st 255 [0xA0, 7, 8] [] []).load 255) = some .add ∧ ((st 255 [0xA0, 7, 8] [] []).load 0).toNat < 8 ∧
    8 ≤ ((st 255 [0xA0, 7, 8] [] []).load 1).toNat ∧
    (instrOf .ldi ((st 253 [0x82] [] []).load 254) ((st 253 [0x82] [] []).load 255)).wellFormed = true ∧
    (afterUnder ⟨.fault, .conventional⟩ (st 253 [0x82] [] [])).phase = .faulted := by decide

theorem witness_InstructionRaisesExactlyOnBadRegister :
    Instr.wellFormed (.add 7 8) = false ∧ Instr.wellFormed (.add 7 7) = true := by decide

theorem witness_FaultPolicyRefinesWrap :
    ∃ t, stepUnder ⟨.fault, .conventional⟩ (st 253 [0x54, 0] [] []) = .next t ∧
      ∀ v, t ≠ takeFault (.overflow v) (st 253 [0x54, 0] [] []) :=
  ⟨_, rfl, fun _ h => nomatch congrArg State.phase h⟩

theorem witness_FaultPolicyAdvanceOverflowsAt253 : (st 253 [0x82] [] []).pc = 253 := by decide

theorem witness_HltStopsTheLoop :
    (∃ t, exec .hlt zero = .next t) ∧ (∃ t, step (st 0 [0x01] [] []) = .next t ∧ t.phase = .halted) ∧
    (st 254 [0x01] [] []).phase = .running ∧ 254 ≤ (st 254 [0x01] [] []).pc.toNat :=
  ⟨⟨_, rfl⟩, ⟨_, rfl, by decide⟩, by decide, by decide⟩

theorem witness_LdiLoadsImmediate :
    8 ≤ (8 : Byte).toNat ∧ (st 255 [0x82] [] []).phase = .running ∧ 254 ≤ (st 255 [0x82] [] []).pc.toNat ∧
    ∃ t u, exec (.ldi (regByte 7) 200) zero = .next t ∧ exec (.prn (regByte 7)) t = .next u :=
  ⟨by decide, by decide, by decide, _, _, rfl, rfl⟩

theorem witness_PrnEmitsRegister : 8 ≤ (8 : Byte).toNat := by decide

theorem witness_AddWritesSum : 8 ≤ (8 : Byte).toNat ∧
    255 < ((st 0 [] [(0, 255), (1, 1)] []).reg 0).toNat + ((st 0 [] [(0, 255), (1, 1)] []).reg 1).toNat := by decide

theorem witness_MulWritesProduct : 8 ≤ (8 : Byte).toNat ∧
    255 < ((st 0 [] [(0, 16), (1, 16)] []).reg 0).toNat * ((st 0 [] [(0, 16), (1, 16)] []).reg 1).toNat := by decide

theorem witness_CmpSetsExactlyOneFlag : 8 ≤ (8 : Byte).toNat ∧ (st 252 [] [] []).pc.toNat ≤ 252 := by decide

theorem witness_PushStoresBelowStackPointer :
    8 ≤ (8 : Byte).toNat ∧ zero.reg 7 = 0 ∧ (0 : RegIdx) ≠ 7 ∧
    ∃ t u, exec (.push (regByte 7)) zero = .next t ∧ exec (.pop (regByte 0)) t = .next u :=
  ⟨by decide, by decide, by decide, _, _, rfl, rfl⟩

theorem witness_SourceQuirkPushDecrementsOperand : 8 ≤ (8 : Byte).toNat ∧ zero.reg 3 = 0 := by decide

theorem witness_PopLoadsFromStackPointer :
    (6 : RegIdx) ≠ 7 ∧ 8 ≤ (8 : Byte).toNat ∧
    (if (6 : RegIdx) = 7 then (st 0 [] [(7, 255)] []).load 255 else (st 0 [] [(7, 255)] []).reg 7) = 255 ∧
    (if (7 : RegIdx) = 7 then (st 0 [] [(7, 9)] [(9, 255)]).load ((st 0 [] [(7, 9)] [(9, 255)]).reg 7)
      else (st 0 [] [(7, 9)] [(9, 255)]).reg 7) = 255 := by decide

theorem witness_CallPushesReturnAddress :
    8 ≤ (8 : Byte).toNat ∧ zero.reg 7 = 0 ∧ (st 253 [] [(7, 1)] []).reg 7 ≠ 0 ∧
    (st 253 [] [(7, 1)] []).pc.toNat ≤ 253 := by decide

theorem witness_RetPopsReturnAddress :
    (st 0 [] [(7, 255)] []).reg 7 = 255 ∧ zero.reg 7 ≠ 255 ∧
    ∃ t u, exec (.call (regByte 7)) zero = .next t ∧ exec .ret t = .next u :=
  ⟨by decide, by decide, _, _, rfl, rfl⟩

theorem witness_JmpSetsPc : 8 ≤ (8 : Byte).toNat ∧ (st 9 [] [(2, 9)] []).reg 2 = (st 9 [] [(2, 9)] []).pc := by decide

theorem witness_JeqJumpsWhenEqual :
    (zero.setFl flagE).fl.getLsbD 0 = true ∧ (zero.setFl flagL).fl.getLsbD 0 = false ∧ 8 ≤ (8 : Byte).toNat := by decide

theorem witness_JneJumpsWhenNotEqual :
    (zero.setFl flagG).fl.getLsbD 0 = false ∧ (zero.setFl flagE).fl.getLsbD 0 = true ∧ 8 ≤ (8 : Byte).toNat := by decide

theorem witness_AluChangesOneRegisterOrFlags :
    (∃ t, alu Config.hardware .add 7 0 zero = .ok t) ∧ (∃ t, alu ⟨.fault, .sourceQuirk⟩ .cmp 7 0 zero = .ok t) ∧
    ∃ t, stepUnder Config.hardware zero = .next t := ⟨⟨_, rfl⟩, ⟨_, rfl⟩, ⟨_, rfl⟩⟩

theorem witness_RegisterWritersFrame :
    (∃ t, exec (.ldi 7 9) zero = .next t) ∧ (∃ t, exec (.add 7 8) zero = .next t) ∧
    (∃ t, exec (.mul 7 0) zero = .next t) ∧ regByte 6 ≠ 7 :=
  ⟨⟨_, rfl⟩, ⟨_, rfl⟩, ⟨_, rfl⟩, by decide⟩

theorem witness_NoRegisterWritersFrame :
    (∃ t, exec .hlt zero = .next t) ∧ (∃ t, exec (.prn 8) zero = .next t) ∧ (∃ t, exec (.cmp 7 7) zero = .next t) ∧
    (∃ t, exec (.jmp 7) zero = .next t) ∧ (∃ t, exec (.jeq 7) zero = .next t) ∧ ∃ t, exec (.jne 7) zero = .next t :=
  ⟨⟨_, rfl⟩, ⟨_, rfl⟩, ⟨_, rfl⟩, ⟨_, rfl⟩, ⟨_, rfl⟩, ⟨_, rfl⟩⟩

theorem witness_StackInstructionsFrame :
    (∃ t, exec (.push 7) zero = .next t) ∧ (∃ t, exec (.pop 6) zero = .next t) ∧ (∃ t, exec (.call 7) zero = .next t) ∧
    (∃ t, exec .ret zero = .next t) ∧ wrap8 Config.hardware.overflow ((zero.sp.toNat : Int) - 1) = .ok 255 ∧
    (0 : Byte) ≠ 255 ∧ (6 : RegIdx) ≠ 7 ∧ regByte 5 ≠ 6 :=
  ⟨⟨_, rfl⟩, ⟨_, rfl⟩, ⟨_, rfl⟩, ⟨_, rfl⟩, by decide, by decide, by decide, by decide⟩

theorem witness_FallThroughIsTheLength :
    Instr.wellFormed (.ldi 7 255) = true ∧ (opcodeByte (opcodeOf (.ldi 7 255))).getLsbD 4 = false ∧
    (∃ t, exec (.ldi 7 255) (st 255 [] [] []) = .next t) ∧ ∃ t, exec (.call (regByte 7)) (st 255 [] [] []) = .next t :=
  ⟨by decide, by decide, ⟨_, rfl⟩, ⟨_, rfl⟩⟩

theorem witness_FlagsChangeByCompareAlone :
    (∃ t, step (st 0 [0xA0] [] []) = .next t) ∧ (st 0 [0xA0] [] []).load 0 ≠ 0xA7 ∧
    (∃ t, step (st 0 [0xA7] [] []) = .next t ∧ t.phase ≠ .faulted) ∧ (st 0 [0xA7] [] []).load 0 = 0xA7 ∧
    (∃ t, step (st 0 [0xA7, 8] [] []) = .next t ∧ t.phase = .faulted) ∧
    (∃ t, step ((st 0 [0xA7] [] []).setFl flagL) = .next t) ∧ ((st 0 [0xA7] [] []).setFl flagL).fl = 0b00000100 :=
  ⟨⟨_, rfl⟩, by decide, ⟨_, rfl, by decide⟩, by decide, ⟨_, rfl, by decide⟩, ⟨_, rfl⟩, by decide⟩

theorem witness_GreaterAndLessAreNeverObserved :
    sameButGL ((st 0 [0x55, 1] [] []).setFl flagG) ((st 0 [0x55, 1] [] []).setFl flagL) ∧
    ∃ t, step ((st 0 [0x55, 1] [] []).setFl flagG) = .next t := ⟨⟨by decide, by decide⟩, ⟨_, rfl⟩⟩

theorem witness_OutputTraceIsNeverRead : ∃ t, step (st 0 [0x47, 7] [] []) = .next t := ⟨_, rfl⟩

theorem witness_OutputGrowsByPrintAlone :
    (∃ t, step (st 0 [0x82] [] []) = .next t) ∧ (st 0 [0x82] [] []).load 0 ≠ 0x47 ∧
    (∃ t, step (st 0 [0x47, 7] [] []) = .next t ∧ t.phase ≠ .faulted) ∧ (st 0 [0x47, 7] [] []).load 0 = 0x47 :=
  ⟨⟨_, rfl⟩, by decide, ⟨_, rfl, by decide⟩, by decide⟩

theorem witness_WrapPolicyReducesModulo256 :
    ((0 : Int) ≤ 255 ∧ (255 : Int) ≤ 255) ∧ ((-1 : Int) < 0) ∧ (255 : Int) < 256 := by decide

theorem witness_RegisterOperandBelowEight : (7 : Byte).toNat < 8 ∧ 8 ≤ (8 : Byte).toNat := by decide

/-- PUSH R0 at PC 6 with SP 9 writes the next opcode; with SP 10 and 11 the operand bytes. -/
theorem witness_NextFetchSeesStore :
    (∃ t, exec (.push (regByte 0)) (st 6 [] [(7, 9), (0, 1)] []) = .next t ∧ t.pc = 9 - 1) ∧
    (∃ t, exec (.push (regByte 0)) (st 6 [] [(7, 10), (0, 1)] []) = .next t ∧ t.pc + 1 = 10 - 1) ∧
    (∃ t, exec (.push (regByte 0)) (st 6 [] [(7, 11), (0, 1)] []) = .next t ∧ t.pc + 2 = 11 - 1) ∧
    ∃ t, exec (.call (regByte 1)) (st 6 [] [(7, 9), (1, 8)] []) = .next t ∧ t.pc = 9 - 1 :=
  ⟨⟨_, rfl, by decide⟩, ⟨_, rfl, by decide⟩, ⟨_, rfl, by decide⟩, ⟨_, rfl, by decide⟩⟩

theorem witness_HostLoadPlacesImage :
    State.reset.phase = .load ∧ (List.replicate 256 (1 : Byte)).length ≤ 256 ∧
    256 < (List.replicate 257 (1 : Byte)).length ∧ zero.phase ≠ .load := by
  simp only [List.length_replicate]; decide

theorem witness_HostRunStartsOnce : State.reset.phase = .load ∧ zero.phase ≠ .load := by decide

theorem witness_StepKeepsInvariant :
    Inv { State.reset with phase := .running } ∧ ∃ t, step { State.reset with phase := .running } = .next t :=
  ⟨⟨rfl, .inl rfl, by decide, (fun _ h => nomatch h), (fun h => nomatch h)⟩, ⟨_, rfl⟩⟩

theorem witness_ReachableMeetsInvariant : Reachable { State.reset with phase := .running } :=
  .run (s := State.reset) .reset rfl

/-- B2: JMP R0 with R0 = 0 at PC 0. -/
theorem witness_JumpToSelfRunsForever :
    (st 0 [0x54, 0] [] []).phase = .running ∧ (st 0 [0x54, 0] [] []).load (st 0 [0x54, 0] [] []).pc = 0x54 ∧
    (st 0 [0x54, 0] [] []).load ((st 0 [0x54, 0] [] []).pc + 1) = regByte 0 ∧
    (st 0 [0x54, 0] [] []).reg 0 = (st 0 [0x54, 0] [] []).pc := by decide

end Sys2Proof.Machine.Tests
end

section
/-! SUPPORT. The statements of the family 00_scope: `wrap8`, register operands, and the two values of `OVERFLOW_POLICY`
compared (00_scope.md R8, R12, R13). -/

namespace Sys2Proof.Machine

/-! ### The primitives -/

/-- The byte `wrap8` makes of an integer is the integer's remainder by 256 (R12). -/
theorem toNat_ofInt_byte (v : Int) : ((BitVec.ofInt 8 v : Byte).toNat : Int) = v % 256 := by
  rw [BitVec.toNat_ofInt]
  exact Int.toNat_of_nonneg (Int.emod_nonneg v (by decide))

/-- Settles O40, from the three cases of `wrap8` and the remainder that `BitVec.ofInt` takes. -/
theorem wrapPolicyReducesModulo256 : Obligations.WrapPolicyReducesModulo256 := by
  refine ⟨fun v => ⟨_, wrap8_wrap v, toNat_ofInt_byte v⟩, fun v h₀ h₁ => ⟨_, wrap8_fault_inside h₀ h₁, ?_⟩,
    fun v => wrap8_fault_outside⟩
  rw [toNat_ofInt_byte]
  exact Int.emod_eq_of_lt h₀ (by omega)

/-- Settles O41, by the two cases of `regOperand`. -/
theorem registerOperandBelowEight : Obligations.RegisterOperandBelowEight :=
  fun _ => ⟨fun h => ⟨_, regOperand_of_lt h, rfl⟩, regOperand_of_ge⟩

/-! ### The PC advance under `Fault` -/

/-- Under `Fault` a fall-through past address 255 raises `Overflow` with the sum (R12, R25). -/
theorem advance_fault_outside (q : Config.PushPolicy) {n : Nat} {s : State} (h : 255 < s.pc.toNat + n) :
    advance ⟨.fault, q⟩ n s = .error (.overflow (s.pc.toNat + n)) := by
  simp [advance, wrap8_fault_outside (v := s.pc.toNat + n) (.inr (by omega))]

/-- From PC 253 a fall-through of 3 bytes raises `Overflow` with 256. -/
theorem advance_fault_at_253 (q : Config.PushPolicy) {s : State} (h : s.pc = 253) :
    advance ⟨.fault, q⟩ 3 s = .error (.overflow 256) := by
  have hpc : s.pc.toNat = 253 := congrArg BitVec.toNat h
  simp [advance_fault_outside q (n := 3) (s := s) (by omega), hpc]

/-- Settles O16: LDI and CMP end in the advance, with the PC still 253 there. -/
theorem faultPolicyAdvanceOverflowsAt253 : Obligations.FaultPolicyAdvanceOverflowsAt253 := by
  intro q s hpc
  refine ⟨fun r imm => ?_, fun a b => ?_⟩
  · have h : handleLdi ⟨.fault, q⟩ (regByte r) imm s = .error (.overflow 256) := by
      simp [handleLdi, regOperand_regByte, advance_fault_at_253, hpc]
    simp [execUnder, handle, h]
  · have h : handleCmp ⟨.fault, q⟩ (regByte a) (regByte b) s = .error (.overflow 256) := by
      simp [handleCmp, aluInstr_regs, alu_cmp, advance_fault_at_253, hpc]
    simp [execUnder, handle, h]

/-! ### `Fault` refines `Wrap` -/

/-- The first computation raises `Overflow`, or it answers just what the second does. With the first under `Fault` and
the second under `Wrap` this holds of every computation of the model, as it is kept by sequencing. -/
def OverflowsOrAgrees {α : Type} (x y : Except FaultCause α) : Prop := (∃ v, x = .error (.overflow v)) ∨ x = y

namespace OverflowsOrAgrees

variable {α β : Type}

theorem refl (x : Except FaultCause α) : OverflowsOrAgrees x x := .inr rfl

theorem bind {x y : Except FaultCause α} {f g : α → Except FaultCause β} (hxy : OverflowsOrAgrees x y)
    (hfg : ∀ a, OverflowsOrAgrees (f a) (g a)) : OverflowsOrAgrees (x >>= f) (y >>= g) := by
  rcases hxy with ⟨v, rfl⟩ | rfl
  · exact .inl ⟨v, rfl⟩
  · cases x with
    | error c => exact refl _
    | ok a => exact hfg a

/-- After a part that is the same on both sides, only what follows is compared. -/
theorem bind_same (x : Except FaultCause α) {f g : α → Except FaultCause β}
    (hfg : ∀ a, OverflowsOrAgrees (f a) (g a)) : OverflowsOrAgrees (x >>= f) (x >>= g) := (refl x).bind hfg

/-- Unless it raises `Overflow`, the first computation's answer is the second's. -/
theorem eq_of_not_overflow {x y : Except FaultCause α} (h : OverflowsOrAgrees x y)
    (hx : ∀ v, x ≠ .error (.overflow v)) : y = x :=
  h.elim (fun ⟨v, hv⟩ => absurd hv (hx v)) Eq.symm

/-- Two committed handlers give the same next state, unless the first takes an `Overflow`. -/
theorem commit_next {x y : Except FaultCause State} {s t : State} (h : OverflowsOrAgrees x y)
    (hx : commit s x = .next t) (ht : ∀ v, t ≠ takeFault (.overflow v) s) : commit s y = .next t := by
  have hxy : y = x := h.eq_of_not_overflow fun v hv => by
    subst hv
    cases hx
    exact ht v rfl
  rw [hxy, hx]

end OverflowsOrAgrees

section

variable {q : Config.PushPolicy}

theorem wrap8_agrees (v : Int) : OverflowsOrAgrees (wrap8 .fault v) (wrap8 .wrap v) := by
  by_cases h : 0 ≤ v ∧ v ≤ 255
  · exact .inr (wrap8_fault_inside h.1 h.2)
  · exact .inl ⟨v, wrap8_fault_outside (by omega)⟩

theorem advance_agrees (n : Nat) (s : State) : OverflowsOrAgrees (advance ⟨.fault, q⟩ n s) (advance ⟨.wrap, q⟩ n s) :=
  (wrap8_agrees _).bind fun _ => .refl _

theorem alu_agrees (tag : AluTag) (a b : RegIdx) (s : State) :
    OverflowsOrAgrees (alu ⟨.fault, q⟩ tag a b s) (alu ⟨.wrap, q⟩ tag a b s) := by
  cases tag with
  | add => exact (wrap8_agrees _).bind fun _ => .refl _
  | mul => exact (wrap8_agrees _).bind fun _ => .refl _
  | cmp => exact .refl _
  | other t => exact .refl _

theorem aluInstr_agrees (tag : AluTag) (a b : Byte) (s : State) :
    OverflowsOrAgrees (aluInstr ⟨.fault, q⟩ tag a b s) (aluInstr ⟨.wrap, q⟩ tag a b s) :=
  .bind_same _ fun _ => .bind_same _ fun _ => (alu_agrees tag _ _ s).bind fun u => advance_agrees 3 u

theorem branch_agrees (taken : Bool) (r : Byte) (s : State) :
    OverflowsOrAgrees (branch ⟨.fault, q⟩ taken r s) (branch ⟨.wrap, q⟩ taken r s) := by
  refine .bind_same _ fun r => ?_
  split
  · exact .refl _
  · exact advance_agrees 2 s

theorem pushByte_agrees {v w : State → Except FaultCause Byte} (hvw : ∀ u, OverflowsOrAgrees (v u) (w u)) (s : State) :
    OverflowsOrAgrees (pushByte ⟨.fault, q⟩ v s) (pushByte ⟨.wrap, q⟩ w s) :=
  (wrap8_agrees _).bind fun _ => (hvw _).bind fun _ => .refl _

theorem raiseSp_agrees (s : State) : OverflowsOrAgrees (raiseSp ⟨.fault, q⟩ s) (raiseSp ⟨.wrap, q⟩ s) :=
  (wrap8_agrees _).bind fun _ => .refl _

theorem handlePush_agrees (r : Byte) (s : State) :
    OverflowsOrAgrees (handlePush ⟨.fault, q⟩ r s) (handlePush ⟨.wrap, q⟩ r s) := by
  refine .bind_same _ fun r => ?_
  cases q with
  | conventional => exact (pushByte_agrees (fun _ => .refl _) s).bind fun u => advance_agrees 2 u
  | sourceQuirk => exact (wrap8_agrees _).bind fun _ => advance_agrees 2 _

/-- Every handler under `Fault` raises `Overflow` or answers what it answers under `Wrap`. -/
theorem handle_agrees (i : Instr) (s : State) : OverflowsOrAgrees (handle ⟨.fault, q⟩ i s) (handle ⟨.wrap, q⟩ i s) := by
  cases i with
  | hlt => exact (advance_agrees 1 s).bind fun _ => .refl _
  | ldi r imm => exact .bind_same _ fun _ => advance_agrees 3 _
  | prn r => exact .bind_same _ fun _ => advance_agrees 2 _
  | add a b => exact aluInstr_agrees .add a b s
  | mul a b => exact aluInstr_agrees .mul a b s
  | push r => exact handlePush_agrees r s
  | pop r => exact .bind_same _ fun _ => (raiseSp_agrees _).bind fun u => advance_agrees 2 u
  | call r => exact .bind_same _ fun _ => (pushByte_agrees (fun _ => wrap8_agrees _) s).bind fun _ => .refl _
  | ret => exact raiseSp_agrees _
  | cmp a b => exact aluInstr_agrees .cmp a b s
  | jmp r => exact branch_agrees true r s
  | jeq r => exact branch_agrees s.flE r s
  | jne r => exact branch_agrees (!s.flE) r s

theorem fetch_agrees (s : State) : OverflowsOrAgrees (fetch ⟨.fault, q⟩ s) (fetch ⟨.wrap, q⟩ s) :=
  (wrap8_agrees _).bind fun _ => (wrap8_agrees _).bind fun _ => .refl _

end

/-- A step in RUNNING whose fetch passes and whose opcode is refused takes the decoder's fault (R82). -/
theorem stepBy_refused {p : Config.Policy} {run : Instr → State → Host.Outcome State Fault Refusal} {s : State}
    {f : Fetched} {e : DecodeError} (hp : s.phase = .running) (hf : fetch p s = .ok f) (hd : decode f = .error e) :
    stepBy p run s = .next (takeFault (decodeFault e) s) := by
  simp [stepBy, hp, noStep, hf, hd]

/-- Settles O15, by the cases of a step: a fetch that raises raises an `Overflow`; a fetch that passes delivers the same
bytes under `Wrap`, which are refused alike or run a handler that agrees. -/
theorem faultPolicyRefinesWrap : Obligations.FaultPolicyRefinesWrap := by
  intro q s t hstep hno
  obtain ⟨hp, ⟨c, hc, ht⟩ | ⟨f, hf, h⟩⟩ := stepBy_cases hstep
  · obtain ⟨-, v, -, rfl⟩ := fetch_raises hc
    exact absurd ht (hno v)
  have hf' : fetch ⟨.wrap, q⟩ s = .ok f :=
    ((fetch_agrees s).eq_of_not_overflow fun v hv => nomatch hf.symm.trans hv).trans hf
  rcases h with ⟨e, hd, rfl⟩ | ⟨i, hd, hrun⟩
  · exact stepBy_refused hp hf' hd
  · exact (stepBy_decoded hp hf' hd).trans ((handle_agrees i s).commit_next hrun hno)

end Sys2Proof.Machine
end

section
/-! SUPPORT. The statements of the family 10_state: what a step reads of the state and what it does to the registers,
FL, the phase, the fault record and the output trace (10_state.md R20 to R33). -/

namespace Sys2Proof.Machine

variable {p : Config.Policy} {s s' t : State} {c : FaultCause}

/-! ### Differences that no step observes -/

/-- A relation of states that no step sees through: related states agree on all that a step reads (registers, PC, E,
memory and phase), and the same write to both, or the same fault taken on both, keeps them related. -/
structure Unobserved (R : State → State → Prop) : Prop where
  reg {s t : State} : R s t → ∀ r, s.reg r = t.reg r
  pc {s t : State} : R s t → s.pc = t.pc
  flE {s t : State} : R s t → s.flE = t.flE
  load {s t : State} : R s t → ∀ a, s.load a = t.load a
  phase {s t : State} : R s t → s.phase = t.phase
  setReg {s t : State} : R s t → ∀ r v, R (s.setReg r v) (t.setReg r v)
  setPc {s t : State} : R s t → ∀ v, R (s.setPc v) (t.setPc v)
  setFl {s t : State} : R s t → ∀ v, R (s.setFl v) (t.setFl v)
  setPhase {s t : State} : R s t → ∀ v, R (s.setPhase v) (t.setPhase v)
  emit {s t : State} : R s t → ∀ v, R (s.emit v) (t.emit v)
  store {s t : State} : R s t → ∀ a v, R (s.store a v) (t.store a v)
  takeFault {s t : State} : R s t → ∀ c, R (takeFault c s) (takeFault c t)

/-- Two computations answer alike up to `R`: related states, or the same fault. -/
inductive SameAnswer (R : State → State → Prop) : Except FaultCause State → Except FaultCause State → Prop where
  | ok {s t : State} : R s t → SameAnswer R (.ok s) (.ok t)
  | error (c : FaultCause) : SameAnswer R (.error c) (.error c)

namespace SameAnswer

variable {R : State → State → Prop} {x y : Except FaultCause State}

/-- After a part that is the same on both sides, only what follows is compared. -/
theorem bind_same {α : Type} (z : Except FaultCause α) {f g : α → Except FaultCause State}
    (h : ∀ a, SameAnswer R (f a) (g a)) : SameAnswer R (z >>= f) (z >>= g) := by
  cases z with
  | ok a => exact h a
  | error c => exact .error c

theorem bind {f g : State → Except FaultCause State} (hxy : SameAnswer R x y)
    (h : ∀ {s t}, R s t → SameAnswer R (f s) (g t)) : SameAnswer R (x >>= f) (y >>= g) := by
  cases hxy with
  | ok hst => exact h hst
  | error c => exact .error c

/-- Committed on related states, computations that answer alike give related next states. -/
theorem commit_next (hxy : SameAnswer R x y) (hR : Unobserved R) (hs : R s s') (hx : commit s x = .next t) :
    ∃ t', commit s' y = .next t' ∧ R t t' := by
  cases hxy with
  | ok h => cases hx; exact ⟨_, rfl, h⟩
  | error c => cases hx; exact ⟨_, rfl, hR.takeFault hs c⟩

end SameAnswer

namespace Unobserved

variable {R : State → State → Prop}

theorem sp (hR : Unobserved R) (h : R s t) : s.sp = t.sp := hR.reg h Config.spIndex

theorem setSp (hR : Unobserved R) (h : R s t) (v : Byte) : R (s.setSp v) (t.setSp v) := hR.setReg h Config.spIndex v

theorem advance (hR : Unobserved R) (n : Nat) (h : R s t) : SameAnswer R (advance p n s) (advance p n t) := by
  rw [Machine.advance, Machine.advance, hR.pc h]
  exact .bind_same _ fun _ => .ok (hR.setPc h _)

theorem alu (hR : Unobserved R) (tag : AluTag) (a b : RegIdx) (h : R s t) :
    SameAnswer R (alu p tag a b s) (alu p tag a b t) := by
  cases tag <;> simp only [Machine.alu, hR.reg h]
  case add => exact .bind_same _ fun _ => .ok (hR.setReg h a _)
  case mul => exact .bind_same _ fun _ => .ok (hR.setReg h a _)
  case cmp => exact .ok (hR.setFl h _)
  case other => exact .error _

theorem aluInstr (hR : Unobserved R) (tag : AluTag) (a b : Byte) (h : R s t) :
    SameAnswer R (aluInstr p tag a b s) (aluInstr p tag a b t) :=
  .bind_same _ fun ra => .bind_same _ fun rb => (hR.alu tag ra rb h).bind (hR.advance 3)

theorem branch (hR : Unobserved R) {taken taken' : Bool} (htaken : taken = taken') (r : Byte) (h : R s t) :
    SameAnswer R (branch p taken r s) (branch p taken' r t) := by
  subst htaken
  refine .bind_same _ fun q => ?_
  cases taken with
  | true => exact .ok (hR.reg h q ▸ hR.setPc h _)
  | false => exact hR.advance 2 h

/-- A push of a byte that is computed alike from related states. -/
theorem pushByte (hR : Unobserved R) {v : State → Except FaultCause Byte} (hv : ∀ {s t}, R s t → v s = v t)
    (h : R s t) : SameAnswer R (pushByte p v s) (pushByte p v t) := by
  rw [Machine.pushByte, Machine.pushByte, hR.sp h]
  refine .bind_same _ fun a => ?_
  have ha := hR.setSp h a
  simp only [hv ha, hR.sp ha]
  exact .bind_same _ fun b => .ok (hR.store ha _ b)

theorem raiseSp (hR : Unobserved R) (h : R s t) : SameAnswer R (raiseSp p s) (raiseSp p t) := by
  rw [Machine.raiseSp, Machine.raiseSp, hR.sp h]
  exact .bind_same _ fun a => .ok (hR.setSp h a)

theorem handlePush (hR : Unobserved R) (r : Byte) (h : R s t) : SameAnswer R (handlePush p r s) (handlePush p r t) := by
  refine .bind_same _ fun q => ?_
  cases p.push with
  | conventional => exact (hR.pushByte (fun hu => congrArg _ (hR.reg hu q)) h).bind (hR.advance 2)
  | sourceQuirk =>
    simp only [hR.reg h]
    refine .bind_same _ fun v => ?_
    have hv := hR.setReg h q v
    rw [hR.sp hv, hR.reg hv]
    exact hR.advance 2 (hR.store hv _ _)

/-- From related states every handler answers alike. -/
theorem handle (hR : Unobserved R) (i : Instr) (h : R s t) : SameAnswer R (handle p i s) (handle p i t) := by
  cases i with
  | hlt => exact (hR.advance 1 h).bind fun hu => .ok (hR.setPhase hu _)
  | ldi r imm => exact .bind_same _ fun q => hR.advance 3 (hR.setReg h q imm)
  | prn r => exact .bind_same _ fun q => hR.advance 2 (hR.reg h q ▸ hR.emit h _)
  | add a b => exact hR.aluInstr .add a b h
  | mul a b => exact hR.aluInstr .mul a b h
  | push r => exact hR.handlePush r h
  | pop r =>
    refine .bind_same _ fun q => ?_
    rw [hR.sp h, hR.load h]
    exact (hR.raiseSp (hR.setReg h q _)).bind (hR.advance 2)
  | call r =>
    refine .bind_same _ fun q => (hR.pushByte (fun hu => by rw [hR.pc hu]) h).bind fun hu => ?_
    exact .ok (hR.reg hu q ▸ hR.setPc hu _)
  | ret =>
    rw [Machine.handle, Machine.handle, handleRet, handleRet, hR.sp h, hR.load h]
    exact hR.raiseSp (hR.setPc h _)
  | cmp a b => exact hR.aluInstr .cmp a b h
  | jmp r => exact hR.branch rfl r h
  | jeq r => exact hR.branch (hR.flE h) r h
  | jne r => exact hR.branch (congrArg _ (hR.flE h)) r h

theorem fetch_eq (hR : Unobserved R) (h : R s t) : fetch p s = fetch p t := by
  simp only [fetch, hR.pc h, hR.load h]

/-- A step from one of two related states has its like from the other. -/
theorem step_next (hR : Unobserved R) (h : R s s') (hstep : step s = .next t) :
    ∃ t', step s' = .next t' ∧ R t t' := by
  obtain ⟨hp, ⟨c, hc, -⟩ | ⟨f, hf, hrun⟩⟩ := stepBy_cases hstep
  · exact absurd (fetch_raises hc) not_raisesOverflow_hardware
  have hp' : s'.phase = .running := (hR.phase h).symm.trans hp
  have hf' : fetch Config.hardware s' = .ok f := (hR.fetch_eq h).symm.trans hf
  rcases hrun with ⟨e, hd, rfl⟩ | ⟨i, hd, hrun⟩
  · exact ⟨_, stepBy_refused hp' hf' hd, hR.takeFault h _⟩
  · rw [exec_eq_commit] at hrun
    obtain ⟨t', ht', hR'⟩ := (hR.handle i h).commit_next hR h hrun
    exact ⟨t', by rw [step, stepBy_decoded hp' hf' hd, exec_eq_commit, ht'], hR'⟩

end Unobserved

/-- G and L are read by no operation, and a write of FL writes all of it. -/
theorem unobserved_sameButGL : Unobserved sameButGL where
  reg h r := (congrArg (State.reg · r) h.2 :)
  pc h := (congrArg State.pc h.2 :)
  flE h := h.1
  load h a := (congrArg (State.load · a) h.2 :)
  phase h := (congrArg State.phase h.2 :)
  setReg h r v := ⟨h.1, congrArg (State.setReg · r v) h.2⟩
  setPc h v := ⟨h.1, congrArg (State.setPc · v) h.2⟩
  setFl h v := ⟨rfl, (congrArg (State.setFl · v) h.2 :)⟩
  setPhase h v := ⟨h.1, congrArg (State.setPhase · v) h.2⟩
  emit h v := ⟨h.1, congrArg (State.emit · v) h.2⟩
  store h a v := ⟨h.1, congrArg (State.store · a v) h.2⟩
  takeFault h c := ⟨h.1, congrArg (takeFault c) h.2⟩

/-- Settles O37: a difference in G and L alone is unobserved. -/
theorem greaterAndLessAreNeverObserved : Obligations.GreaterAndLessAreNeverObserved :=
  fun _ _ _ h hstep => unobserved_sameButGL.step_next h hstep

/-- The state with bytes put before its output trace. -/
def State.outputAfter (earlier : List Byte) (s : State) : State := { s with output := earlier ++ s.output }

/-- The output trace is read by no operation, and PRN writes at its other end. -/
theorem unobserved_outputAfter (earlier : List Byte) : Unobserved fun s t => t = s.outputAfter earlier where
  reg h _ := h ▸ rfl
  pc h := h ▸ rfl
  flE h := h ▸ rfl
  load h _ := h ▸ rfl
  phase h := h ▸ rfl
  setReg h _ _ := h ▸ rfl
  setPc h _ := h ▸ rfl
  setFl h _ := h ▸ rfl
  setPhase h _ := h ▸ rfl
  emit h v := by rw [h]; simp only [State.outputAfter, State.emit, List.append_assoc]
  store h _ _ := h ▸ rfl
  takeFault h _ := h ▸ rfl

/-- Settles O38: bytes put before the output trace are unobserved. -/
theorem outputTraceIsNeverRead : Obligations.OutputTraceIsNeverRead := by
  intro s t earlier hstep
  obtain ⟨t', ht', rfl⟩ := (unobserved_outputAfter earlier).step_next rfl hstep
  exact ht'

end Sys2Proof.Machine
end

section
/-! SUPPORT. The statements of the family 10_state about one step: the invariant, the phase, FL and the output trace
(10_state.md R26 to R32). -/

namespace Sys2Proof.Machine

variable {p : Config.Policy} {s t : State}

/-! ### What a step did, by where it ended -/

/-- The opcode bytes of two opcodes differ (R63). -/
theorem opcodeByte_inj {o o' : Opcode} (h : opcodeByte o = opcodeByte o') : o = o' :=
  Option.some.inj (by rw [← opcodeOfByte_opcodeByte o, h, opcodeOfByte_opcodeByte])

/-- The opcode of a decoded instruction is the one it was decoded with. -/
theorem opcode_of_instrOf_eq {o : Opcode} {a b : Byte} {i : Instr} (h : instrOf o a b = i) : o = opcodeOf i := by
  rw [← h, opcodeOf_instrOf]

/-- A handler that completes leaves the phase or halts, so it does not end FAULTED. -/
theorem handle_ok_not_faulted {i : Instr} (hs : s.phase = .running) (h : handle p i s = .ok t) :
    t.phase ≠ .faulted := by
  rw [(handle_ok h).phase, hs]
  split_ifs <;> decide

/-- A step that ends FAULTED has taken a fault on the state before (R172). -/
theorem step_faulted (h : step s = .next t) (ht : t.phase = .faulted) :
    ∃ c, StepRaises Config.hardware s c ∧ t = takeFault c s := by
  obtain ⟨hs, hfault | ⟨o, -, hok⟩⟩ := step_cases h
  · exact hfault
  · exact absurd ht (handle_ok_not_faulted hs hok)

/-- A step that does not end FAULTED has completed the handler of the instruction at PC. -/
theorem step_completed (h : step s = .next t) (ht : t.phase ≠ .faulted) :
    ∃ o, s.load s.pc = opcodeByte o ∧
      handle Config.hardware (instrOf o (s.load (s.pc + 1)) (s.load (s.pc + 2))) s = .ok t := by
  obtain ⟨-, ⟨c, -, rfl⟩ | hok⟩ := step_cases h
  · exact absurd rfl ht
  · exact hok

/-- A step at the byte of an opcode runs that opcode's instruction. -/
theorem step_of_opcode {o : Opcode} (hs : s.phase = .running) (ho : s.load s.pc = opcodeByte o) :
    step s = exec (instrOf o (s.load (s.pc + 1)) (s.load (s.pc + 2))) s :=
  stepBy_decoded hs (fetch_hardware s) (by simp [decode, ho])

/-! ### The invariant -/

/-- The values CMP leaves in FL: exactly one of E, G, L is set (R27). -/
def oneFlag (fl : Byte) : Prop := fl = flagE ∨ fl = flagG ∨ fl = flagL

theorem oneFlag_compareFlags (x y : Byte) : oneFlag (compareFlags x y) := by
  rcases compareFlags_cases x y with ⟨-, h⟩ | ⟨-, h⟩ | ⟨-, h⟩
  · exact .inl h
  · exact .inr (.inr h)
  · exact .inr (.inl h)

/-- A handler that completes leaves FL, or is CMP's and sets exactly one flag. -/
theorem handle_ok_flags {i : Instr} (h : handle p i s = .ok t) :
    t.fl = s.fl ∨ (∃ a b, i = .cmp a b) ∧ oneFlag t.fl := by
  rcases (handle_ok h).flags with h | ⟨a, b, hi, x, y, hfl⟩
  · exact .inl h
  · exact .inr ⟨⟨a, b, hi⟩, hfl ▸ oneFlag_compareFlags x y⟩

/-- The fault a step of this hardware takes is recorded as the invariant asks (R31, R172). -/
theorem recordFits_takeFault {c : FaultCause} (hc : StepRaises Config.hardware s c) :
    RecordFits (takeFault c s) { cause := c, pc := s.pc, opcode := s.load s.pc } where
  pc := rfl
  opcode := rfl
  cause := by
    rcases hc with hc | hc | ⟨b, hb, hc, ho, hat⟩
    · exact absurd hc not_raisesOverflow_hardware
    · exact .inl hc
    · exact .inr ⟨ho, b, hb, hc, hat⟩

theorem Inv.takeFault {c : FaultCause} (h : Inv s) (hc : StepRaises Config.hardware s c) : Inv (takeFault c s) where
  memory := h.memory
  flags := h.flags
  recorded := by simp
  fits _ hr := Option.some.inj hr ▸ recordFits_takeFault hc
  loading hl := nomatch hl

/-- A handler that completes keeps the canonical form of memory (R40). -/
theorem handle_ok_wf {i : Instr} (h : handle p i s = .ok t) (hs : s.mem.wf = true) : t.mem.wf = true := by
  rcases (handle_ok h).memory with hm | ⟨a, v, hm⟩ <;> rw [hm]
  · exact hs
  · exact Memory.wf_write a v hs

/-- A handler that completes in RUNNING keeps the invariant: there is no fault record before it, and it writes none. -/
theorem Inv.handle_ok {i : Instr} (h : Inv s) (hs : s.phase = .running) (hok : handle p i s = .ok t) : Inv t := by
  obtain ⟨hrecord, hphase, -, -, -⟩ := Machine.handle_ok hok
  have hnone : t.faultRecord = none := by
    rw [hrecord, ← not_ne_iff, ← h.recorded, hs]
    decide
  exact {
    memory := handle_ok_wf hok h.memory
    flags := by
      rcases handle_ok_flags hok with hfl | ⟨-, hfl⟩
      · exact hfl ▸ h.flags
      · exact .inr hfl
    recorded := by simp [hnone, handle_ok_not_faulted hs hok]
    fits := fun r hr => nomatch hnone.symm.trans hr
    loading := fun hl => by
      rw [hphase, hs] at hl
      split_ifs at hl }

/-- Settles O50, by the two ways a step ends. -/
theorem stepKeepsInvariant : Obligations.StepKeepsInvariant := by
  intro s t h hstep
  obtain ⟨hs, ⟨c, hc, rfl⟩ | ⟨o, -, hok⟩⟩ := step_cases hstep
  · exact h.takeFault hc
  · exact h.handle_ok hs hok

/-! ### The phase -/

/-- HLT completes from every state and halts (R88). -/
theorem exec_hlt (s : State) : exec .hlt s = .next ((s.setPc (s.pc + 1)).setPhase .halted) := by
  simp [exec_eq_commit, handle, handleHlt, advance_hardware]

/-- A step halts exactly where the opcode at PC is HLT's (R88). -/
theorem step_halted_iff (h : step s = .next t) : t.phase = .halted ↔ s.load s.pc = opcodeByte .hlt := by
  obtain ⟨hs, -⟩ := step_cases h
  constructor
  · intro ht
    obtain ⟨o, ho, hok⟩ := step_completed h (by rw [ht]; decide)
    have hphase := (handle_ok hok).phase
    by_cases hi : instrOf o (s.load (s.pc + 1)) (s.load (s.pc + 2)) = .hlt
    · rw [ho, opcode_of_instrOf_eq hi, opcodeOf]
    · rw [if_neg hi, ht, hs] at hphase
      cases hphase
  · intro ho
    rw [step_of_opcode hs ho, instrOf, exec_hlt] at h
    cases h
    rfl

/-- Settles O8: where a step does not halt it stays RUNNING or ends FAULTED, and the running flag is a view of the
phase. -/
theorem phaseLeavesRunningOnlyByHaltOrFault : Obligations.PhaseLeavesRunningOnlyByHaltOrFault := by
  intro s t h
  refine ⟨?_, step_halted_iff h, ?_⟩
  · obtain ⟨hs, ⟨c, -, rfl⟩ | ⟨o, -, hok⟩⟩ := step_cases h
    · exact .inr (.inr rfl)
    · rw [(handle_ok hok).phase, hs]
      split_ifs
      · exact .inr (.inl rfl)
      · exact .inl rfl
  · rw [runningFlag, bne_eq_false_iff_eq]
    exact step_halted_iff h

/-! ### FL and the output trace -/

/-- A completed CMP sets exactly one flag (R27, R114). -/
theorem handleCmp_ok {a b : Byte} (h : handleCmp p a b s = .ok t) :
    ∃ x y, t = (s.setFl (compareFlags x y)).setPc (s.pc + 3) := by
  obtain ⟨ra, rb, u, -, -, hu, rfl⟩ := aluInstr_ok h
  rw [alu_cmp] at hu
  cases hu
  exact ⟨_, _, rfl⟩

/-- A step leaves FL, or its opcode is CMP's and it sets exactly one flag. -/
theorem step_flags (h : step s = .next t) : t.fl = s.fl ∨ s.load s.pc = opcodeByte .cmp ∧ oneFlag t.fl := by
  obtain ⟨-, ⟨c, -, rfl⟩ | ⟨o, ho, hok⟩⟩ := step_cases h
  · exact .inl rfl
  · rcases handle_ok_flags hok with hfl | ⟨⟨a, b, hi⟩, hfl⟩
    · exact .inl hfl
    · exact .inr ⟨by rw [ho, opcode_of_instrOf_eq hi, opcodeOf], hfl⟩

/-- Settles O36, from what a step does to FL. -/
theorem flagsChangeByCompareAlone : Obligations.FlagsChangeByCompareAlone := by
  refine ⟨fun s t h hne => ?_, fun s t h heq ht => ?_, fun s t h ht => ?_, fun s t h hs => ?_, rfl⟩
  · exact (step_flags h).resolve_right fun ⟨ho, _⟩ => hne ho
  · obtain ⟨o, ho, hok⟩ := step_completed h ht
    obtain rfl : o = .cmp := opcodeByte_inj (ho.symm.trans heq)
    obtain ⟨x, y, rfl⟩ := handleCmp_ok hok
    exact oneFlag_compareFlags x y
  · obtain ⟨c, -, rfl⟩ := step_faulted h ht
    rfl
  · rcases step_flags h with hfl | ⟨-, hfl⟩
    · rw [hfl]; exact hs
    · exact hfl

/-- A completed PRN appends one byte to the output trace (R101). -/
theorem handlePrn_ok {r : Byte} (h : handlePrn p r s = .ok t) : ∃ v, t = (s.emit v).setPc (s.pc + 2) := by
  obtain ⟨q, -, h⟩ := bind_ok h
  exact ⟨_, advance_ok h⟩

/-- Settles O39, by the ways a step ends. -/
theorem outputGrowsByPrintAlone : Obligations.OutputGrowsByPrintAlone := by
  intro s t h
  refine ⟨fun hne => ?_, fun heq ht => ?_⟩
  · obtain ⟨-, ⟨c, -, rfl⟩ | ⟨o, ho, hok⟩⟩ := step_cases h
    · rfl
    · refine (handle_ok hok).output.resolve_right fun ⟨a, v, hi, _⟩ => hne ?_
      rw [ho, opcode_of_instrOf_eq hi]
      rfl
  · obtain ⟨o, ho, hok⟩ := step_completed h ht
    obtain rfl : o = .prn := opcodeByte_inj (ho.symm.trans heq)
    obtain ⟨v, rfl⟩ := handlePrn_ok hok
    exact ⟨v, rfl⟩

end Sys2Proof.Machine
end

section
/-! SUPPORT. The statements of the family 10_state about the register file and about what each group of instructions
leaves unchanged (10_state.md R20, R22, R25; 20_memory.md R41; 30_encoding.md R68). -/

namespace Sys2Proof.Machine

variable {p : Config.Policy} {s t : State}

/-! ### The register file -/

/-- Settles O42, from the read of a register after a write. -/
theorem registersReadBack : Obligations.RegistersReadBack := by
  refine ⟨fun s r q v => ?_, by decide⟩
  rw [State.reg_setReg]
  exact if_congr eq_comm rfl rfl

theorem State.reg_setSp_other (s : State) {q : RegIdx} (v : Byte) (h : q ≠ Config.spIndex) :
    (s.setSp v).reg q = s.reg q := State.reg_setReg_other s v h.symm

/-- An operand that names a register is that register's byte (R61). -/
theorem regOperand_ok {b : Byte} {q : RegIdx} (h : regOperand b = .ok q) : b = regByte q := by
  rcases byte_cases b with ⟨r, rfl⟩ | hb
  · rw [regOperand_regByte] at h
    rw [Except.ok.inj h]
  · exact nomatch (regOperand_of_ge hb).symm.trans h

/-! ### What a completed handler wrote -/

theorem handleHlt_ok (h : handleHlt p s = .ok t) : t = (s.setPc (s.pc + 1)).setPhase .halted := by
  obtain ⟨u, hu, h⟩ := bind_ok h
  cases h
  exact congrArg (State.setPhase · .halted) (advance_ok hu)

/-- LDI, ADD and MUL write the register that the first operand names, and move on by 3 (R100, R112, R113). -/
theorem registerWriter_ok {i : Instr} {r b : Byte} (hi : i = .ldi r b ∨ i = .add r b ∨ i = .mul r b)
    (h : handle p i s = .ok t) : ∃ q v, r = regByte q ∧ t = (s.setReg q v).setPc (s.pc + 3) := by
  have arith {tag : AluTag} (htag : tag = .add ∨ tag = .mul) (h : aluInstr p tag r b s = .ok t) :
      ∃ q v, r = regByte q ∧ t = (s.setReg q v).setPc (s.pc + 3) := by
    obtain ⟨q, _, u, hq, -, hu, rfl⟩ := aluInstr_ok h
    obtain ⟨v, rfl⟩ := alu_arith_ok htag hu
    exact ⟨q, v, regOperand_ok hq, rfl⟩
  rcases hi with rfl | rfl | rfl
  · obtain ⟨q, hq, h⟩ := bind_ok h
    exact ⟨q, b, regOperand_ok hq, advance_ok h⟩
  · exact arith (.inl rfl) h
  · exact arith (.inr rfl) h

/-- On this hardware a push writes SP - 1 to SP, and one byte there. -/
theorem pushByte_hardware_ok {v : State → Except FaultCause Byte} (h : pushByte Config.hardware v s = .ok t) :
    ∃ b, v (s.setSp (s.sp - 1)) = .ok b ∧ t = (s.setSp (s.sp - 1)).store (s.sp - 1) b := by
  obtain ⟨sp, hsp, h⟩ := bind_ok h
  obtain rfl : sp = s.sp - 1 := (wrap8_ok hsp).trans (ofInt_pred s.sp)
  obtain ⟨b, hb, h⟩ := bind_ok h
  cases h
  exact ⟨b, hb, by rw [State.sp_setSp]⟩

/-- PUSH writes SP and one byte, and moves on by 2 (R130). -/
theorem handlePush_hardware_ok {r : Byte} (h : handlePush Config.hardware r s = .ok t) :
    ∃ b, t = ((s.setSp (s.sp - 1)).store (s.sp - 1) b).setPc (s.pc + 2) := by
  obtain ⟨q, -, h⟩ := bind_ok h
  obtain ⟨u, hu, h⟩ := bind_ok h
  obtain ⟨b, -, rfl⟩ := pushByte_hardware_ok hu
  exact ⟨b, advance_ok h⟩

/-- POP writes the register its operand names, then SP, and moves on by 2 (R132). -/
theorem handlePop_ok {r : Byte} (h : handlePop p r s = .ok t) :
    ∃ q v sp, r = regByte q ∧ t = ((s.setReg q v).setSp sp).setPc (s.pc + 2) := by
  obtain ⟨q, hq, h⟩ := bind_ok h
  obtain ⟨u, hu, h⟩ := bind_ok h
  obtain ⟨sp, rfl⟩ := raiseSp_ok hu
  exact ⟨q, _, sp, regOperand_ok hq, advance_ok h⟩

/-- CALL writes SP, the return address PC + 2 at the new SP, and the PC (R133). -/
theorem handleCall_hardware_ok {r : Byte} (h : handleCall Config.hardware r s = .ok t) :
    ∃ pc, t = ((s.setSp (s.sp - 1)).store (s.sp - 1) (s.pc + 2)).setPc pc := by
  obtain ⟨q, -, h⟩ := bind_ok h
  obtain ⟨u, hu, h⟩ := bind_ok h
  obtain ⟨b, hb, rfl⟩ := pushByte_hardware_ok hu
  obtain rfl : b = s.pc + 2 := (wrap8_ok hb).trans (ofInt_toNat_add s.pc 2)
  cases h
  exact ⟨_, rfl⟩

/-- RET writes the PC and SP (R134). -/
theorem handleRet_ok (h : handleRet p s = .ok t) : ∃ pc sp, t = (s.setPc pc).setSp sp := by
  obtain ⟨sp, rfl⟩ := raiseSp_ok h
  exact ⟨_, sp, rfl⟩

/-- What an instruction that answers a next state has done: it took a fault on the state before, or completed. -/
theorem exec_cases {i : Instr} (h : exec i s = .next t) :
    (∃ c, t = takeFault c s) ∨ handle Config.hardware i s = .ok t := by
  rw [exec_eq_commit] at h
  rcases commit_cases h with hok | ⟨c, -, rfl⟩
  · exact .inr hok
  · exact .inl ⟨c, rfl⟩

/-- A well-formed instruction completes on this hardware (R67). -/
theorem exec_wellFormed {i : Instr} (hi : i.wellFormed = true) (h : exec i s = .next t) :
    handle Config.hardware i s = .ok t := by
  rw [exec_eq_commit] at h
  rcases commit_cases h with hok | ⟨c, hc, -⟩
  · exact hok
  · rcases handle_error hc with ⟨b, -, -, -, hbad⟩ | hov
    · exact nomatch hi.symm.trans hbad
    · exact absurd hov not_raisesOverflow_hardware

/-- A handler that completes keeps the phase, unless it is HLT's. -/
theorem handle_ok_phase {i : Instr} (hi : i ≠ .hlt) (h : handle p i s = .ok t) : t.phase = s.phase := by
  rw [(handle_ok h).phase, if_neg hi]

/-- A handler that completes keeps FL, unless it is CMP's. -/
theorem handle_ok_fl {i : Instr} (hi : ∀ a b, i ≠ .cmp a b) (h : handle p i s = .ok t) : t.fl = s.fl :=
  (handle_ok_flags h).resolve_right fun ⟨⟨a, b, h⟩, _⟩ => hi a b h

/-- A handler that completes keeps the output trace, unless it is PRN's. -/
theorem handle_ok_output {i : Instr} (hi : ∀ a, i ≠ .prn a) (h : handle p i s = .ok t) : t.output = s.output :=
  (handle_ok h).output.resolve_right fun ⟨a, _, h, _⟩ => hi a h

/-! ### Frames -/

/-- Settles O32: one register and the PC are written. -/
theorem registerWritersFrame : Obligations.RegisterWritersFrame := by
  intro i r b s t hi h
  rcases exec_cases h with ⟨c, rfl⟩ | hok
  · exact ⟨fun _ _ => rfl, rfl, rfl, fun _ => rfl, .inl rfl⟩
  · obtain ⟨q, v, rfl, rfl⟩ := registerWriter_ok hi hok
    refine ⟨fun q' hq => ?_, rfl, rfl, fun _ => rfl, .inr ⟨rfl, rfl⟩⟩
    exact State.reg_setReg_other s v fun heq => hq (heq ▸ rfl)

/-- HLT, PRN, CMP and the branches write no register and no memory. -/
theorem noRegisterWriter_ok {i : Instr} {a b : Byte}
    (hi : i = .hlt ∨ i = .prn a ∨ i = .cmp a b ∨ i = .jmp a ∨ i = .jeq a ∨ i = .jne a)
    (h : handle p i s = .ok t) : t.regs = s.regs ∧ t.mem = s.mem := by
  have jump {taken : Bool} (h : branch p taken a s = .ok t) : t.regs = s.regs ∧ t.mem = s.mem := by
    obtain ⟨pc, rfl⟩ := branch_ok h
    exact ⟨rfl, rfl⟩
  rcases hi with rfl | rfl | rfl | rfl | rfl | rfl
  · rw [handleHlt_ok h]
    exact ⟨rfl, rfl⟩
  · obtain ⟨v, rfl⟩ := handlePrn_ok h
    exact ⟨rfl, rfl⟩
  · obtain ⟨x, y, rfl⟩ := handleCmp_ok h
    exact ⟨rfl, rfl⟩
  · exact jump h
  · exact jump h
  · exact jump h

/-- Settles O33: what a handler changes beside registers and memory is known of every instruction. -/
theorem noRegisterWritersFrame : Obligations.NoRegisterWritersFrame := by
  intro i a b s t hi h
  rcases exec_cases h with ⟨c, rfl⟩ | hok
  · exact ⟨fun _ => rfl, fun _ => rfl, fun _ => rfl, fun _ => rfl, .inl rfl⟩
  · obtain ⟨hregs, hmem⟩ := noRegisterWriter_ok hi hok
    refine ⟨fun q => congrArg (·[q]) hregs, fun hcmp => handle_ok_fl ?_ hok, fun hprn => handle_ok_output ?_ hok,
      fun x => congrArg (Memory.read · x) hmem,
      .inr ⟨(handle_ok hok).record, fun hhlt => handle_ok_phase hhlt hok⟩⟩
    · rintro a' b' rfl
      simp only [reduceCtorEq, false_or, or_false] at hi
      exact hcmp hi
    · rintro a' rfl
      simp only [reduceCtorEq, false_or, or_false] at hi
      exact hprn hi

/-- A load is as before at every address but the one stored at. -/
theorem State.load_store_other (s : State) {a x : Byte} (v : Byte) (h : x ≠ a) : (s.store a v).load x = s.load x :=
  Memory.read_write_other s.mem v h.symm

/-- PUSH, POP, CALL and RET write no register but R7 and POP's destination; PUSH and CALL store at SP - 1 alone, POP and
RET nowhere. -/
theorem stackInstruction_ok {i : Instr} {r : Byte} (hi : i = .push r ∨ i = .pop r ∨ i = .call r ∨ i = .ret)
    (h : handle Config.hardware i s = .ok t) :
    (∀ q : RegIdx, q ≠ 7 → (i = .pop r → regByte q ≠ r) → t.reg q = s.reg q) ∧
      (∀ x, x ≠ s.sp - 1 → t.load x = s.load x) ∧ (i = .pop r ∨ i = .ret → ∀ x, t.load x = s.load x) := by
  rcases hi with rfl | rfl | rfl | rfl
  · obtain ⟨b, rfl⟩ := handlePush_hardware_ok h
    exact ⟨fun q hq _ => State.reg_setSp_other s _ hq, fun x hx => State.load_store_other _ _ hx, by simp⟩
  · obtain ⟨q, v, sp, rfl, rfl⟩ := handlePop_ok h
    refine ⟨fun q' hq' hne => ?_, fun _ _ => rfl, fun _ _ => rfl⟩
    exact (State.reg_setSp_other _ sp hq').trans (State.reg_setReg_other s v fun heq => hne rfl (heq ▸ rfl))
  · obtain ⟨pc, rfl⟩ := handleCall_hardware_ok h
    exact ⟨fun q hq _ => State.reg_setSp_other s _ hq, fun x hx => State.load_store_other _ _ hx, by simp⟩
  · obtain ⟨pc, sp, rfl⟩ := handleRet_ok h
    exact ⟨fun q hq _ => State.reg_setSp_other _ sp hq, fun _ _ => rfl, fun _ _ => rfl⟩

/-- Settles O34: as O33, with what the four write to registers and memory. -/
theorem stackInstructionsFrame : Obligations.StackInstructionsFrame := by
  intro i r s t hi h
  rcases exec_cases h with ⟨c, rfl⟩ | hok
  · exact ⟨fun _ _ _ => rfl, rfl, rfl, fun _ _ _ _ => rfl, fun _ _ => rfl, .inl rfl⟩
  · obtain ⟨hreg, hstore, hload⟩ := stackInstruction_ok hi hok
    obtain ⟨hcmp, hprn, hhlt⟩ : (∀ a b, i ≠ .cmp a b) ∧ (∀ a, i ≠ .prn a) ∧ i ≠ .hlt := by
      rcases hi with rfl | rfl | rfl | rfl <;> simp
    refine ⟨hreg, handle_ok_fl hcmp hok, handle_ok_output hprn hok, fun a ha x hx => hstore x ?_, hload,
      .inr ⟨handle_ok_phase hhlt hok, (handle_ok hok).record⟩⟩
    rwa [← ofInt_pred, ← wrap8_ok ha]

/-! ### The fall-through -/

/-- An instruction that sets no PC of its own, which bit 4 of its opcode says, moves the PC on by its length (R25,
R64). -/
theorem handle_ok_pc {i : Instr} (hi : (opcodeByte (opcodeOf i)).getLsbD 4 = false)
    (h : handle Config.hardware i s = .ok t) : t.pc = s.pc + BitVec.ofNat 8 (instrLength i) := by
  have writer {i : Instr} {r b : Byte} (hi : i = .ldi r b ∨ i = .add r b ∨ i = .mul r b)
      (h : handle Config.hardware i s = .ok t) : t.pc = s.pc + 3 := by
    obtain ⟨_, _, -, rfl⟩ := registerWriter_ok hi h
    rfl
  cases i with
  | hlt =>
    rw [handleHlt_ok h]
    rfl
  | ldi r imm => exact writer (.inl rfl) h
  | prn r =>
    obtain ⟨_, rfl⟩ := handlePrn_ok h
    rfl
  | add a b => exact writer (.inr (.inl rfl)) h
  | mul a b => exact writer (.inr (.inr rfl)) h
  | push r =>
    obtain ⟨_, rfl⟩ := handlePush_hardware_ok h
    rfl
  | pop r =>
    obtain ⟨_, _, _, -, rfl⟩ := handlePop_ok h
    rfl
  | cmp a b =>
    obtain ⟨_, _, rfl⟩ := handleCmp_ok h
    rfl
  | call | ret | jmp | jeq | jne => simp [opcodeOf, opcodeByte] at hi

/-- The byte that names a register makes CALL well formed. -/
theorem wellFormed_call_regByte (r : RegIdx) : Instr.wellFormed (.call (regByte r)) = true :=
  decide_eq_true (regByte_toNat_lt r)

/-- Settles O35: a well-formed instruction completes, and CALL's return address is what it stores at the new SP. -/
theorem fallThroughIsTheLength : Obligations.FallThroughIsTheLength := by
  refine ⟨fun i s t hi hbit h => handle_ok_pc hbit (exec_wellFormed hi h), fun r s t h => ?_⟩
  obtain ⟨pc, rfl⟩ := handleCall_hardware_ok (exec_wellFormed (wellFormed_call_regByte r) h)
  simp [State.load_store, instrLength, opcodeOf, opcodeFormat, formatLength]

end Sys2Proof.Machine
end

section
/-! SUPPORT. The statements of the family 20_memory: a read after a write, and the fetch after a PUSH or CALL
(20_memory.md R43, R51). -/

namespace Sys2Proof.Machine

/-! ### A read after a write -/

/-- Settles O43, from the read of a cell after a store. -/
theorem memoryReadsBack : Obligations.MemoryReadsBack := by
  intro s a b v
  rw [State.load_store]
  exact if_congr eq_comm rfl rfl

/-- The byte stored is read at its address. -/
@[simp] theorem State.load_store_same (s : State) (a v : Byte) : (s.store a v).load a = v :=
  Memory.read_write_same s.mem a v

/-! ### What PUSH and CALL store -/

variable {s t : State}

/-- A read of a register after SP is set: SP is R7 (R21). -/
theorem State.reg_setSp (s : State) (q : RegIdx) (v : Byte) : (s.setSp v).reg q = if q = 7 then v else s.reg q :=
  (State.reg_setReg s Config.spIndex q v).trans (if_congr eq_comm rfl rfl)

/-- PUSH with a register operand completes: SP down by 1, then the register at the new SP, then 2 on (R130). -/
theorem exec_push (r : RegIdx) (s : State) :
    exec (.push (regByte r)) s =
      .next (((s.setSp (s.sp - 1)).store (s.sp - 1) ((s.setSp (s.sp - 1)).reg r)).setPc (s.pc + 2)) := by
  have hpush : handlePush Config.hardware (regByte r) s =
      (pushByte Config.hardware (fun t => .ok (t.reg r)) s >>= advance Config.hardware 2) := by
    rw [handlePush, regOperand_regByte]
    rfl
  calc exec (.push (regByte r)) s
    _ = commit s (handlePush Config.hardware (regByte r) s) := rfl
    _ = _ := by
      rw [hpush, pushByte_hardware rfl, ok_bind, advance_hardware, commit_ok]
      rfl

/-- After PUSH the address R7 - 1 reads the register pushed, as it stands after SP has moved (R130). -/
theorem load_pushed {r : RegIdx} (h : exec (.push (regByte r)) s = .next t) :
    t.load (s.reg 7 - 1) = if r = 7 then s.reg 7 - 1 else s.reg r := by
  obtain rfl := Host.Outcome.next.inj ((exec_push r s).symm.trans h)
  exact (State.load_store_same _ _ _).trans (State.reg_setSp s r _)

/-- After CALL the address R7 - 1 reads the return address (R133). -/
theorem load_called {r : RegIdx} (h : exec (.call (regByte r)) s = .next t) : t.load (s.reg 7 - 1) = s.pc + 2 := by
  obtain ⟨pc, rfl⟩ := handleCall_hardware_ok (exec_wellFormed (wellFormed_call_regByte r) h)
  exact State.load_store_same _ _ _

/-! ### The next fetch -/

/-- A fetch delivers what memory holds, wherever among the three bytes an address stands (R51, R81). -/
theorem fetch_sees_load {x v : Byte} (h : t.load x = v) :
    ∃ f, fetch Config.hardware t = .ok f ∧ (t.pc = x → f.opcode = v) ∧ (t.pc + 1 = x → f.a = v) ∧
      (t.pc + 2 = x → f.b = v) :=
  ⟨_, fetch_hardware t, fun hx => hx ▸ h, fun hx => hx ▸ h, fun hx => hx ▸ h⟩

/-- Settles O44: the address below the old SP holds the byte stored, and the fetch reads memory as it then stands. -/
theorem nextFetchSeesStore : Obligations.NextFetchSeesStore := by
  rintro i r v s t (⟨rfl, rfl⟩ | ⟨rfl, rfl⟩) h
  · exact fetch_sees_load (load_pushed h)
  · exact fetch_sees_load (load_called h)

end Sys2Proof.Machine
end

section
/-! SUPPORT. The statements of the family 30_encoding: an instruction and its bytes, in a byte stream and at PC, and
what a register operand of 8 or more does (30_encoding.md R60 to R68). -/

namespace Sys2Proof.Machine

/-! ### An instruction and its bytes -/

/-- An opcode's byte decodes to that opcode's instruction, whatever two bytes follow it (R82, R83). -/
theorem decode_opcodeByte (o : Opcode) (a b : Byte) : decode ⟨opcodeByte o, a, b⟩ = .ok (instrOf o a b) := by
  simp [decode]

/-- The encoding of an instruction is as many of its opcode's byte and two operand bytes as its format is long (R60). -/
theorem encode_instrOf (o : Opcode) (a b : Byte) :
    encode (instrOf o a b) = [opcodeByte o, a, b].take (formatLength (opcodeFormat o)) := by
  cases o <;> rfl

/-- An instruction is made again from its opcode and any two bytes that begin with its operand bytes (R62). -/
theorem instrOf_of_operandBytes_prefix {i : Instr} {a b : Byte} (h : operandBytes i <+: [a, b]) :
    instrOf (opcodeOf i) a b = i := by
  cases i <;> simp_all [operandBytes, instrOf, opcodeOf]

/-- Settles O1: seven words begin with the byte of an opcode, and the other two bytes are in no row of the table. -/
theorem specWordsDecode : Obligations.SpecWordsDecode :=
  ⟨decode_opcodeByte .hlt _ _, decode_opcodeByte .ldi _ _, decode_opcodeByte .prn _ _, decode_opcodeByte .add _ _,
    decode_opcodeByte .cmp _ _, decode_opcodeByte .call _ _, decode_opcodeByte .jne _ _, rfl, rfl⟩

/-! ### The byte stream -/

/-- The decoder reads an encoding back and leaves what follows it. -/
theorem decodeBytes_encode (i : Instr) (rest : List Byte) : decodeBytes (encode i ++ rest) = .ok (i, rest) := by
  cases i <;> rfl

/-- A byte stream that decodes begins with an opcode's byte and as many operand bytes as its format has (R65). -/
theorem decodeBytes_ok {bytes rest : List Byte} {i : Instr} (h : decodeBytes bytes = .ok (i, rest)) :
    ∃ o a b, i = instrOf o a b ∧ bytes = [opcodeByte o, a, b].take (formatLength (opcodeFormat o)) ++ rest := by
  cases bytes with
  | nil => cases h
  | cons op tail =>
    rw [decodeBytes] at h
    cases ho : opcodeOfByte op with
    | none => simp [ho] at h
    | some o =>
      obtain rfl := opcodeOfByte_eq_some.mp ho
      simp only [ho] at h
      split at h
      next hformat => cases h; exact ⟨o, 0, 0, rfl, by simp [hformat, formatLength]⟩
      next a _ hformat => cases h; exact ⟨o, a, 0, rfl, by simp [hformat, formatLength]⟩
      next a b _ hformat => cases h; exact ⟨o, a, b, rfl, by simp [hformat, formatLength]⟩
      next a b _ hformat => cases h; exact ⟨o, a, b, rfl, by simp [hformat, formatLength]⟩
      all_goals cases h

/-- Settles O2: what a stream that decodes begins with is the encoding of the instruction read. -/
theorem decodeInvertsEncode : Obligations.DecodeInvertsEncode := by
  intro bytes i rest
  constructor
  · intro h
    obtain ⟨o, a, b, rfl, hbytes⟩ := decodeBytes_ok h
    rw [hbytes, encode_instrOf]
  · rintro rfl
    exact decodeBytes_encode i rest

/-! ### The encoding at PC -/

variable {p : Config.Policy} {s t : State}

/-- An encoding has at most the three bytes a fetch reads (R60). -/
theorem encode_length_le (i : Instr) : (encode i).length ≤ 3 := by
  cases i <;> simp [encode, operandBytes]

/-- An encoding that stands at PC begins the three bytes a fetch reads (R44, R81). -/
theorem encode_prefix_fetched {i : Instr}
    (h : ∀ (k : Nat) (hk : k < (encode i).length), s.load (s.pc + BitVec.ofNat 8 k) = (encode i)[k]) :
    encode i <+: [s.load s.pc, s.load (s.pc + 1), s.load (s.pc + 2)] := by
  refine List.prefix_iff_getElem.mpr ⟨encode_length_le i, fun k hk => (h k hk).symm.trans ?_⟩
  have : k < 3 := hk.trans_le (encode_length_le i)
  interval_cases k
  · simp
  · rfl
  · rfl

/-- Settles O4: the first fetched byte is the opcode's, and the next two begin with the operand bytes. -/
theorem stepRunsEncodedInstruction : Obligations.StepRunsEncodedInstruction := by
  intro s i hs h
  obtain ⟨hopcode, hoperands⟩ := List.cons_prefix_cons.mp (encode_prefix_fetched h)
  rw [step_of_opcode hs hopcode.symm, instrOf_of_operandBytes_prefix hoperands]

/-! ### Register operands -/

/-- An operand that is read as a register names one (R13). -/
theorem namesRegister_of_regOperand_ok {b : Byte} {r : RegIdx} (h : regOperand b = .ok r) : namesRegister b = true := by
  rw [regOperand_ok h]
  exact decide_eq_true (regByte_toNat_lt r)

/-- What begins by reading a register operand completes only where the operand names a register (R84). -/
theorem namesRegister_of_bind_ok {b : Byte} {f : RegIdx → Except FaultCause State} (h : (regOperand b >>= f) = .ok t) :
    namesRegister b = true := by
  obtain ⟨r, hr, -⟩ := bind_ok h
  exact namesRegister_of_regOperand_ok hr

/-- A handler completes for a well-formed instruction alone, under any policy (R67). -/
theorem wellFormed_of_handle_ok {i : Instr} (h : handle p i s = .ok t) : i.wellFormed = true := by
  have two {tag : AluTag} {a b : Byte} (h : aluInstr p tag a b s = .ok t) :
      (namesRegister a && namesRegister b) = true := by
    obtain ⟨ra, rb, -, ha, hb, -⟩ := aluInstr_ok h
    exact Bool.and_eq_true_iff.mpr ⟨namesRegister_of_regOperand_ok ha, namesRegister_of_regOperand_ok hb⟩
  cases i
  case hlt | ret => rfl
  case add | mul | cmp => exact two h
  case ldi | prn | push | pop | call | jmp | jeq | jne => exact namesRegister_of_bind_ok h

/-- On this hardware a handler raises for a register operand alone, and the instruction is then not well formed (R67). -/
theorem handle_hardware_error {i : Instr} {c : FaultCause} (h : handle Config.hardware i s = .error c) :
    ∃ b ∈ operandBytes i, 8 ≤ b.toNat ∧ c = .invalidRegister b ∧ i.wellFormed = false :=
  (handle_error h).resolve_right not_raisesOverflow_hardware

/-- Settles O14: a handler completes, and the instruction is well formed, or it raises for one of its operands. -/
theorem instructionRaisesExactlyOnBadRegister : Obligations.InstructionRaisesExactlyOnBadRegister := by
  intro i s
  rw [exec_eq_commit]
  cases hi : handle Config.hardware i s with
  | ok t =>
    obtain ⟨hrecord, hphase, -, -, -⟩ := handle_ok hi
    exact ⟨fun hbad => (nomatch hbad.symm.trans (wellFormed_of_handle_ok hi)), fun _ => ⟨t, rfl, hrecord, hphase⟩⟩
  | error c =>
    obtain ⟨b, hb, h8, rfl, hbad⟩ := handle_hardware_error hi
    exact ⟨fun _ => ⟨b, hb, h8, rfl⟩, fun hgood => nomatch hbad.symm.trans hgood⟩

end Sys2Proof.Machine
end

section
/-! SUPPORT. The statements of the family 40_execution_loop: the fetch, when there is a step, how a run ends, what a
raising step leaves, and HLT (40_execution_loop.md R80 to R89). -/

namespace Sys2Proof.Machine

variable {p : Config.Policy} {run : Instr → State → Host.Outcome State Fault Refusal} {s t : State} {c : FaultCause}

/-! ### Fetch -/

/-- Under `Fault` a fetch up to PC 253 delivers the three bytes from PC on (R81). -/
theorem fetch_fault_inside (q : Config.PushPolicy) (h : s.pc.toNat ≤ 253) :
    fetch ⟨.fault, q⟩ s = .ok ⟨s.load s.pc, s.load (s.pc + 1), s.load (s.pc + 2)⟩ := by
  have h₁ : wrap8 .fault (s.pc.toNat + 1) = .ok (s.pc + 1) :=
    (wrap8_fault_inside (by omega) (by omega)).trans (congrArg _ (ofInt_toNat_add s.pc 1))
  have h₂ : wrap8 .fault (s.pc.toNat + 2) = .ok (s.pc + 2) :=
    (wrap8_fault_inside (by omega) (by omega)).trans (congrArg _ (ofInt_toNat_add s.pc 2))
  simp only [fetch, h₁, h₂, ok_bind]
  rfl

/-- Under `Fault` a fetch at PC 254 or 255 raises `Overflow` with 256, by its third byte's address or its second's
(R81). -/
theorem fetch_fault_outside (q : Config.PushPolicy) (h : 254 ≤ s.pc.toNat) :
    fetch ⟨.fault, q⟩ s = .error (.overflow 256) := by
  obtain hpc | hpc : s.pc.toNat = 254 ∨ s.pc.toNat = 255 := by have := s.pc.isLt; omega
  · simp [fetch, hpc, wrap8_fault_inside, wrap8_fault_outside]
  · simp [fetch, hpc, wrap8_fault_outside]

/-- A step in RUNNING whose fetch raises takes that fault, whatever the opcode (R81, R86). -/
theorem stepBy_fetch_raises (hp : s.phase = .running) (hf : fetch p s = .error c) :
    stepBy p run s = .next (takeFault c s) := by
  simp [stepBy, hp, noStep, hf]

/-- Under `Fault` a step at PC 254 or 255 takes `Overflow` with 256 (R81). -/
theorem stepUnder_fault_outside (q : Config.PushPolicy) (hp : s.phase = .running) (h : 254 ≤ s.pc.toNat) :
    stepUnder ⟨.fault, q⟩ s = .next (takeFault (.overflow 256) s) :=
  stepBy_fetch_raises hp (fetch_fault_outside q h)

/-- Settles O5: the fetch under `Wrap`, at the two PCs where it wraps, and the fetch under `Fault` on either side of
PC 253. -/
theorem fetchReadsThreeBytes : Obligations.FetchReadsThreeBytes := by
  refine ⟨fetch_hardware, fun s hpc => ?_, fun s hpc => ?_, fun q _ => fetch_fault_inside q,
    fun q _ => stepUnder_fault_outside q⟩
  · rw [fetch_hardware, hpc]
    rfl
  · rw [fetch_hardware, hpc]
    rfl

/-- Settles O3: the fetch of this hardware passes with the bytes that decode. -/
theorem stepRunsDecodedInstruction : Obligations.StepRunsDecodedInstruction :=
  fun s _ hp hd => stepBy_decoded hp (fetch_hardware s) hd

/-! ### When there is a step -/

/-- In a phase that waits or has ended there is no step, under any policy (R80). -/
theorem stepBy_stuck {why : Fault} (h : noStep s.phase = some why) : stepBy p run s = .fault why := by
  simp [stepBy, h]

/-- A committed handler always answers a next state, its own or the fault's (R86). -/
theorem commit_answers (s : State) (r : Except FaultCause State) : ∃ t, commit s r = .next t := by
  cases r with
  | ok t => exact ⟨t, rfl⟩
  | error c => exact ⟨takeFault c s, rfl⟩

/-- In RUNNING every step answers a next state, under any policy: the fetch's fault, the decoder's, or the committed
handler's answer (R85, R87). -/
theorem stepUnder_answers (p : Config.Policy) (hp : s.phase = .running) : ∃ t, stepUnder p s = .next t := by
  cases hf : fetch p s with
  | error c => exact ⟨_, stepBy_fetch_raises hp hf⟩
  | ok f =>
    cases hd : decode f with
    | error e => exact ⟨_, stepBy_refused hp hf hd⟩
    | ok i =>
      obtain ⟨t, ht⟩ := commit_answers s (handle p i s)
      exact ⟨t, (stepBy_decoded hp hf hd).trans ht⟩

/-- There is a step exactly in RUNNING (R80). -/
theorem step_next_iff : (∃ t, step s = .next t) ↔ s.phase = .running :=
  ⟨fun ⟨_, h⟩ => (step_cases h).1, fun hp => stepUnder_hardware s ▸ stepUnder_answers Config.hardware hp⟩

/-- Settles O7, phase by phase. -/
theorem stepExistsExactlyWhenRunning : Obligations.StepExistsExactlyWhenRunning :=
  fun _ => ⟨step_next_iff, fun h => stepBy_stuck (congrArg noStep h), fun h => stepBy_stuck (congrArg noStep h),
    fun h => stepBy_stuck (congrArg noStep h)⟩

/-! ### The ends of a run -/

/-- A normal end is the phase HALTED (R89). -/
theorem normalEnd_iff : normalEnd s = true ↔ s.phase = .halted := beq_iff_eq

/-- An abnormal end is the phase FAULTED (R89). -/
theorem abnormalEnd_iff : abnormalEnd s = true ↔ s.phase = .faulted := beq_iff_eq

/-- An end is normal or abnormal (R89). -/
theorem isEnd_iff : isEnd s = true ↔ normalEnd s = true ∨ abnormalEnd s = true := Bool.or_eq_true_iff

/-- In RUNNING a run has not ended, and in any other phase but LOAD it has (R29, R89). -/
theorem isEnd_iff_not_running (h : s.phase ≠ .load) : isEnd s = true ↔ s.phase ≠ .running := by
  rw [isEnd_iff, normalEnd_iff, abnormalEnd_iff]
  cases hp : s.phase with
  | load => exact absurd hp h
  | running | halted | faulted => decide

/-- The status port shows a taken fault's record (R187). -/
theorem hostStatus_takeFault (c : FaultCause) (s : State) :
    (hostStatus (takeFault c s)).record = some { cause := c, pc := s.pc, opcode := s.load s.pc } := rfl

/-- Settles O9: a step starts in RUNNING and halts by HLT alone, and one that ends FAULTED has recorded its fault. -/
theorem runEndsByHaltOrFault : Obligations.RunEndsByHaltOrFault := by
  refine ⟨fun s t h => ⟨?_, normalEnd_iff.trans (step_halted_iff h), fun ht => ?_, isEnd_iff⟩, fun s hs => ?_⟩
  · obtain ⟨hp, -⟩ := step_cases h
    rw [isEnd, hp]
    rfl
  · obtain ⟨c, -, rfl⟩ := step_faulted h (abnormalEnd_iff.mp ht)
    rw [hostStatus_takeFault]
    exact Option.some_ne_none _
  · rw [step_next_iff]
    exact isEnd_iff_not_running hs

/-! ### A step that raises -/

/-- A step that ends FAULTED has taken a fault on the state before, under any policy: a handler that completes never
ends FAULTED (R86). -/
theorem stepUnder_faulted (h : stepUnder p s = .next t) (ht : t.phase = .faulted) : ∃ c, t = takeFault c s := by
  obtain ⟨hp, ⟨c, -, hc⟩ | ⟨o, -, hok⟩⟩ := stepUnder_cases h
  · exact ⟨c, hc⟩
  · exact absurd ht (handle_ok_not_faulted hp hok)

/-- Settles O11: the state a fault is taken on is the one before the step, whatever the handler had written. -/
theorem raisingStepUndoesItsWrites : Obligations.RaisingStepUndoesItsWrites := by
  intro p s t h ht
  obtain ⟨c, rfl⟩ := stepUnder_faulted h ht
  exact ⟨rfl, rfl, rfl, rfl, rfl⟩

/-! ### HLT -/

/-- Settles O17: HLT's row of the table, its effect, and HALTED as a phase that HLT alone leads into and nothing leads
out of. -/
theorem hltStopsTheLoop : Obligations.HltStopsTheLoop := by
  refine ⟨fun a b => ⟨decode_opcodeByte .hlt a b, rfl⟩, exec_hlt, fun s t h => ?_,
    fun s t h => (step_halted_iff h).mp, fun q _ => stepUnder_fault_outside q⟩
  obtain rfl := Host.Outcome.next.inj ((exec_hlt s).symm.trans h)
  exact stepBy_stuck rfl

end Sys2Proof.Machine
end

section
/-! SUPPORT. The statements of the family 41_register_io: LDI and PRN (41_register_io.md R100, R101). -/

namespace Sys2Proof.Machine

/-! ### An opcode's row, and a bad register operand -/

/-- Every opcode's byte stands for its instruction, in the length of its format (R60, R63). -/
theorem encodedAs_instrOf (o : Opcode) : encodedAs (opcodeByte o) (formatLength (opcodeFormat o)) (instrOf o) :=
  fun a b => ⟨decode_opcodeByte o a b, by rw [instrLength, opcodeOf_instrOf]⟩

/-- An instruction whose handler begins by reading a register operand raises for an operand that names none (R84). -/
theorem raisesInvalidRegister_of_bind {i : Instr} {b : Byte} {f : State → RegIdx → Except FaultCause State}
    (hi : ∀ s, handle Config.hardware i s = regOperand b >>= f s) (hb : 8 ≤ b.toNat) : raisesInvalidRegister i b := by
  intro s
  rw [exec_eq_commit, hi, regOperand_of_ge hb, error_bind, commit_error]

/-! ### LDI and PRN -/

/-- LDI with a register operand completes: the immediate in the register, then 3 on (R100). -/
theorem exec_ldi (r : RegIdx) (imm : Byte) (s : State) :
    exec (.ldi (regByte r) imm) s = .next ((s.setReg r imm).setPc (s.pc + 3)) := by
  rw [exec_eq_commit, handle, handleLdi, regOperand_regByte, ok_bind, advance_hardware, commit_ok]
  rfl

/-- PRN with a register operand completes: the register's byte at the end of the output trace, then 2 on (R101). -/
theorem exec_prn (r : RegIdx) (s : State) :
    exec (.prn (regByte r)) s = .next ((s.emit (s.reg r)).setPc (s.pc + 2)) := by
  rw [exec_eq_commit, handle, handlePrn, regOperand_regByte, ok_bind, advance_hardware, commit_ok]
  rfl

/-- LDI then PRN of the same register emits the immediate (R100): PRN reads the register LDI wrote, and LDI leaves the
output trace. -/
theorem output_ldi_prn {r : RegIdx} {v : Byte} {s t u : State} (ht : exec (.ldi (regByte r) v) s = .next t)
    (hu : exec (.prn (regByte r)) t = .next u) : u.output = s.output ++ [v] := by
  obtain rfl := Host.Outcome.next.inj ((exec_ldi r v s).symm.trans ht)
  obtain rfl := Host.Outcome.next.inj ((exec_prn r _).symm.trans hu)
  exact congrArg (s.output ++ [·]) (State.reg_setReg_same s r v)

/-- Settles O18: LDI's row of the table, its effect, its bad operand, the fetch under `Fault`, and PRN after it. -/
theorem ldiLoadsImmediate : Obligations.LdiLoadsImmediate :=
  ⟨encodedAs_instrOf .ldi, exec_ldi, fun _ _ => raisesInvalidRegister_of_bind fun _ => rfl,
    fun q _ => stepUnder_fault_outside q, fun _ _ _ _ _ => output_ldi_prn⟩

/-- Settles O19: PRN's row of the table, its effect and its bad operand. -/
theorem prnEmitsRegister : Obligations.PrnEmitsRegister :=
  ⟨encodedAs_instrOf .prn, exec_prn, fun _ => raisesInvalidRegister_of_bind fun _ => rfl⟩

end Sys2Proof.Machine
end

section
/-! SUPPORT. The statements of the family 42_alu: ADD, MUL, CMP and the ALU under them (42_alu.md R110 to R114). -/

namespace Sys2Proof.Machine

variable {p : Config.Policy} {tag : AluTag} {a b : RegIdx} {s t u : State} {c : FaultCause}

/-! ### An ALU instruction's operands, the ALU's answer, and the advance -/

/-- An ALU instruction takes `InvalidRegister` for a first operand that names no register, whatever the second (R84). -/
theorem raisesInvalidRegister_first {i : Byte → Byte → Instr}
    (hi : ∀ a b s, handle Config.hardware (i a b) s = aluInstr Config.hardware tag a b s) (a b : Byte)
    (ha : 8 ≤ a.toNat) : raisesInvalidRegister (i a b) a := by
  intro s
  rw [exec_eq_commit, hi, aluInstr_bad_a _ _ b s ha, commit_error]

/-- After a good first operand, an ALU instruction takes `InvalidRegister` for a second that names no register (R84). -/
theorem raisesInvalidRegister_second {i : Byte → Byte → Instr}
    (hi : ∀ a b s, handle Config.hardware (i a b) s = aluInstr Config.hardware tag a b s) (a : RegIdx) (b : Byte)
    (hb : 8 ≤ b.toNat) : raisesInvalidRegister (i (regByte a) b) b := by
  intro s
  rw [exec_eq_commit, hi, aluInstr_bad_b _ _ a s hb, commit_error]

/-- Once the ALU has answered, an ALU instruction has only its advance left. -/
theorem aluInstr_of_alu_ok (h : alu p tag a b s = .ok u) :
    aluInstr p tag (regByte a) (regByte b) s = advance p 3 u := by
  rw [aluInstr_regs, h, ok_bind]

/-- On this hardware an ALU instruction with two register operands completes: what the ALU answers, then 3 on. -/
theorem commit_aluInstr_hardware (h : alu Config.hardware tag a b s = .ok u) :
    commit s (aluInstr Config.hardware tag (regByte a) (regByte b) s) = .next (u.setPc (u.pc + 3)) := by
  rw [aluInstr_of_alu_ok h, advance_hardware, commit_ok]
  rfl

/-- An ALU instruction takes the fault that the ALU raises. -/
theorem commit_aluInstr_raises (h : alu p tag a b s = .error c) :
    commit s (aluInstr p tag (regByte a) (regByte b) s) = .next (takeFault c s) := by
  rw [aluInstr_regs, h, error_bind, commit_error]

/-! ### ADD -/

theorem exec_add (a b : RegIdx) (s : State) :
    exec (.add (regByte a) (regByte b)) s = .next ((s.setReg a (s.reg a + s.reg b)).setPc (s.pc + 3)) :=
  commit_aluInstr_hardware (alu_add_hardware a b s)

/-- Under `Fault` a sum above 255 raises `Overflow` with the sum (R111). -/
theorem alu_add_fault_outside (q : Config.PushPolicy) (h : 255 < (s.reg a).toNat + (s.reg b).toNat) :
    alu ⟨.fault, q⟩ .add a b s = .error (.overflow ((s.reg a).toNat + (s.reg b).toNat)) := by
  rw [alu, wrap8_fault_outside (.inr (by exact_mod_cast h)), error_bind]

/-- Settles O20: ADD's row of the table, its effect, its bad operands in order, and the sum out of range. -/
theorem addWritesSum : Obligations.AddWritesSum :=
  ⟨encodedAs_instrOf .add, exec_add,
    raisesInvalidRegister_first (tag := .add) fun _ _ _ => rfl,
    raisesInvalidRegister_second (tag := .add) fun _ _ _ => rfl,
    fun q _ _ _ h => commit_aluInstr_raises (alu_add_fault_outside q h)⟩

/-! ### MUL -/

theorem exec_mul (a b : RegIdx) (s : State) :
    exec (.mul (regByte a) (regByte b)) s = .next ((s.setReg a (s.reg a * s.reg b)).setPc (s.pc + 3)) :=
  commit_aluInstr_hardware (alu_mul_hardware a b s)

/-- Under `Fault` a product above 255 raises `Overflow` with the product (R111). -/
theorem alu_mul_fault_outside (q : Config.PushPolicy) (h : 255 < (s.reg a).toNat * (s.reg b).toNat) :
    alu ⟨.fault, q⟩ .mul a b s = .error (.overflow ((s.reg a).toNat * (s.reg b).toNat)) := by
  rw [alu, wrap8_fault_outside (.inr (by exact_mod_cast h)), error_bind]

/-- The product of two bytes is the low byte of the exact product (R113). -/
theorem mul_eq_low_byte (x y : Byte) : x * y = BitVec.ofNat 8 (x.toNat * y.toNat % 256) :=
  BitVec.eq_of_toNat_eq (by simp)

/-- Settles O21: MUL's row of the table, its effect, its bad operands in order, and the product out of range. -/
theorem mulWritesProduct : Obligations.MulWritesProduct := by
  refine ⟨encodedAs_instrOf .mul, fun a b s => ?_,
    raisesInvalidRegister_first (tag := .mul) fun _ _ _ => rfl,
    raisesInvalidRegister_second (tag := .mul) fun _ _ _ => rfl,
    fun q _ _ _ h => commit_aluInstr_raises (alu_mul_fault_outside q h)⟩
  rw [exec_mul, mul_eq_low_byte]
  rfl

/-! ### CMP -/

theorem exec_cmp (a b : RegIdx) (s : State) :
    exec (.cmp (regByte a) (regByte b)) s =
      .next ((s.setFl (compareFlags (s.reg a) (s.reg b))).setPc (s.pc + 3)) :=
  commit_aluInstr_hardware (alu_cmp _ a b s)

/-- Under `Fault` a fall-through that stays below 256 is the one of this hardware (R12, R25). -/
theorem advance_fault_inside (q : Config.PushPolicy) {n : Nat} (h : s.pc.toNat + n ≤ 255) :
    advance ⟨.fault, q⟩ n s = advance Config.hardware n s := by
  have hpc : wrap8 .fault (s.pc.toNat + n) = wrap8 .wrap (s.pc.toNat + n) :=
    wrap8_fault_inside (by omega) (by omega)
  rw [advance, hpc]
  rfl

/-- CMP's operation raises nothing, so that under `Fault` CMP differs from this hardware's in its advance alone. -/
theorem aluInstr_cmp_fault_inside (q : Config.PushPolicy) (a b : RegIdx) (h : s.pc.toNat ≤ 252) :
    aluInstr ⟨.fault, q⟩ .cmp (regByte a) (regByte b) s =
      aluInstr Config.hardware .cmp (regByte a) (regByte b) s := by
  rw [aluInstr_of_alu_ok (alu_cmp _ a b s), aluInstr_of_alu_ok (alu_cmp _ a b s)]
  exact advance_fault_inside q (by rw [State.setFl_pc]; omega)

/-- Settles O22: CMP's row of the table, its effect, its bad operands in order, and the same under `Fault`. -/
theorem cmpSetsExactlyOneFlag : Obligations.CmpSetsExactlyOneFlag :=
  ⟨encodedAs_instrOf .cmp, exec_cmp,
    raisesInvalidRegister_first (tag := .cmp) fun _ _ _ => rfl,
    raisesInvalidRegister_second (tag := .cmp) fun _ _ _ => rfl,
    fun q a b s h => congrArg (commit s) (aluInstr_cmp_fault_inside q a b h)⟩

/-! ### The ALU -/

/-- ADD and MUL in the ALU leave all but the register file, and every register but the first. -/
theorem alu_arith_frame (htag : tag = .add ∨ tag = .mul) (h : alu p tag a b s = .ok t) :
    t = { s with regs := t.regs } ∧ ∀ q, q ≠ a → t.reg q = s.reg q := by
  obtain ⟨v, rfl⟩ := alu_arith_ok htag h
  exact ⟨rfl, fun q hq => State.reg_setReg_other s v hq.symm⟩

/-- Two faults taken on one state leave the same state only if they are the same fault. -/
theorem takeFault_inj {d : FaultCause} (h : takeFault c s = takeFault d s) : c = d :=
  congrArg FaultRecord.cause (Option.some.inj (congrArg State.faultRecord h))

/-- No step can record `UnsupportedALUOperation`: ADD, MUL and CMP pass no other tag (R174). -/
theorem not_stepRaises_unsupported : ¬ StepRaises p s (.unsupportedAluOperation tag) := by
  rintro (⟨-, v, -, h⟩ | ⟨h, -⟩ | ⟨r, -, h, -⟩) <;> exact nomatch h

/-- Settles O31, by the ALU's tags, and by the two ways a step ends: with a fault that a step can record, or with a
completed handler, which leaves the phase other than FAULTED. -/
theorem aluChangesOneRegisterOrFlags : Obligations.AluChangesOneRegisterOrFlags := by
  refine ⟨fun p tag a b s t h => ?_, fun _ _ _ _ _ => rfl, fun p s t tag h ht => ?_⟩
  · cases tag with
    | add => exact .inr ⟨.inl rfl, alu_arith_frame (.inl rfl) h⟩
    | mul => exact .inr ⟨.inr rfl, alu_arith_frame (.inr rfl) h⟩
    | cmp =>
      obtain rfl := Except.ok.inj ((alu_cmp p a b s).symm.trans h)
      exact .inl ⟨rfl, rfl, oneFlag_compareFlags _ _⟩
    | other n => exact nomatch h
  · obtain ⟨hs, ⟨c, hc, hfault⟩ | ⟨o, -, hok⟩⟩ := stepUnder_cases h
    · obtain rfl := takeFault_inj (hfault.symm.trans ht)
      exact not_stepRaises_unsupported hc
    · exact handle_ok_not_faulted hs hok (by rw [ht, takeFault_phase])

end Sys2Proof.Machine
end

section
/-! SUPPORT. The statements of the family 43_stack: PUSH, POP, CALL, RET and the stack operations under them
(43_stack.md R130 to R135). -/

namespace Sys2Proof.Machine

variable {p : Config.Policy} {i : Instr} {r r2 : RegIdx} {s t u : State} {c : FaultCause}

/-! ### The stack operations under `Fault` -/

/-- An instruction takes the fault that its handler raises, under any policy (R86). -/
theorem execUnder_raises (h : handle p i s = .error c) : execUnder p i s = .next (takeFault c s) := by
  rw [execUnder, h, commit_error]

/-- Under `Fault` the decrement of a byte 0 raises `Overflow` with -1 (R12). -/
theorem wrap8_fault_pred_zero {x : Byte} (h : x = 0) :
    wrap8 .fault ((x.toNat : Int) - 1) = .error (.overflow (-1)) := by
  subst h
  exact wrap8_fault_outside (.inl (by decide))

/-- Under `Fault` a push with SP 0 raises `Overflow` with -1, whatever it pushes (R135). -/
theorem pushByte_fault_at_zero (q : Config.PushPolicy) (v : State → Except FaultCause Byte) (h : s.sp = 0) :
    pushByte ⟨.fault, q⟩ v s = .error (.overflow (-1)) := by
  rw [pushByte, wrap8_fault_pred_zero h, error_bind]

/-- Under `Fault` the end of a pop with SP 255 raises `Overflow` with 256 (R135). -/
theorem raiseSp_fault_at_255 (q : Config.PushPolicy) (h : s.sp = 255) :
    raiseSp ⟨.fault, q⟩ s = .error (.overflow 256) := by
  rw [raiseSp, h]
  exact congrArg (· >>= _) (wrap8_fault_outside (.inr (by decide)))

/-- Under `Fault` a push with SP above 0 moves SP as on this hardware (R135). -/
theorem pushByte_fault_inside (q : Config.PushPolicy) (v : State → Except FaultCause Byte) (h : s.sp ≠ 0) :
    pushByte ⟨.fault, q⟩ v s =
      v (s.setSp (s.sp - 1)) >>= fun b => .ok ((s.setSp (s.sp - 1)).store (s.sp - 1) b) := by
  have hpos : s.sp.toNat ≠ 0 := fun h₀ => h (BitVec.eq_of_toNat_eq h₀)
  have hsp : wrap8 .fault ((s.sp.toNat : Int) - 1) = .ok (s.sp - 1) :=
    (wrap8_fault_inside (by omega) (by have := s.sp.isLt; omega)).trans (congrArg _ (ofInt_pred s.sp))
  simp only [pushByte, hsp, ok_bind, State.sp_setSp]
  rfl

/-- Under `Fault` the end of a pop with SP below 255 is the one of this hardware (R135). -/
theorem raiseSp_fault_inside (q : Config.PushPolicy) (h : s.sp ≠ 255) :
    raiseSp ⟨.fault, q⟩ s = raiseSp Config.hardware s := by
  have hlt : s.sp.toNat ≠ 255 := fun h₀ => h (BitVec.eq_of_toNat_eq h₀)
  have hsp : wrap8 .fault (s.sp.toNat + 1) = wrap8 .wrap (s.sp.toNat + 1) :=
    wrap8_fault_inside (by omega) (by have := s.sp.isLt; omega)
  rw [raiseSp, hsp]
  rfl

/-! ### POP, CALL and RET on this hardware -/

/-- POP with a register operand completes: the byte at SP in the register, then SP, as it then stands, up by 1, then 2
on (R132). -/
theorem exec_pop (r : RegIdx) (s : State) :
    exec (.pop (regByte r)) s =
      .next (((s.setReg r (s.load s.sp)).setSp ((s.setReg r (s.load s.sp)).sp + 1)).setPc (s.pc + 2)) := by
  rw [exec_eq_commit, handle, handlePop, regOperand_regByte, ok_bind, raiseSp_hardware, ok_bind, advance_hardware,
    commit_ok]
  rfl

/-- Of two writes to one register the later stands (R20). -/
theorem State.setReg_setReg (s : State) (r : RegIdx) (v w : Byte) : (s.setReg r v).setReg r w = s.setReg r w :=
  congrArg (fun regs => { s with regs := regs }) (Vector.set_set ..)

/-- SP after a register is written: SP is R7 (R21). -/
theorem State.sp_setReg (s : State) (r : RegIdx) (v : Byte) : (s.setReg r v).sp = if r = 7 then v else s.sp :=
  State.reg_setReg s r Config.spIndex v

/-- CALL's handler with a register operand, under any policy, is a push of the return address and a jump to the
register as it stands after the push (R133). -/
theorem handleCall_regByte (p : Config.Policy) (r : RegIdx) (s : State) :
    handleCall p (regByte r) s =
      pushByte p (fun t => wrap8 p.overflow (t.pc.toNat + 2)) s >>= fun t => .ok (t.setPc (t.reg r)) := by
  rw [handleCall, regOperand_regByte]
  rfl

/-- CALL with a register operand completes: SP down by 1, PC + 2 at the new SP, then to the register's byte (R133). -/
theorem exec_call (r : RegIdx) (s : State) :
    exec (.call (regByte r)) s =
      .next (((s.setSp (s.sp - 1)).store (s.sp - 1) (s.pc + 2)).setPc ((s.setSp (s.sp - 1)).reg r)) := by
  have hret : wrap8 Config.hardware.overflow ((s.setSp (s.sp - 1)).pc.toNat + 2) = .ok (s.pc + 2) :=
    congrArg _ (ofInt_toNat_add s.pc 2)
  rw [exec_eq_commit, handle, handleCall_regByte, pushByte_hardware hret, ok_bind, commit_ok]
  rfl

/-- RET completes: to the byte at SP, then SP up by 1 (R134). -/
theorem exec_ret (s : State) : exec .ret s = .next ((s.setPc (s.load s.sp)).setSp (s.sp + 1)) := by
  rw [exec_eq_commit, handle, handleRet, raiseSp_hardware, commit_ok]
  rfl

/-! ### PUSH -/

/-- Under `Fault` PUSH with SP 0 raises `Overflow` with -1 (R130). -/
theorem handlePush_fault_at_zero (r : RegIdx) (h : s.sp = 0) :
    handlePush ⟨.fault, .conventional⟩ (regByte r) s = .error (.overflow (-1)) := by
  rw [handlePush, regOperand_regByte, ok_bind]
  exact congrArg (· >>= _) (pushByte_fault_at_zero .conventional _ h)

/-- PUSH then POP into a register other than R7 gives that register the byte PUSH stored, and SP its old value
(R130). -/
theorem push_pop (hr2 : r2 ≠ 7) (ht : exec (.push (regByte r)) s = .next t)
    (hu : exec (.pop (regByte r2)) t = .next u) :
    u.reg r2 = (if r = 7 then s.reg 7 - 1 else s.reg r) ∧ u.reg 7 = s.reg 7 := by
  have hsp : t.sp = s.sp - 1 := by
    obtain rfl := Host.Outcome.next.inj ((exec_push r s).symm.trans ht)
    exact State.sp_setSp s _
  obtain rfl := Host.Outcome.next.inj ((exec_pop r2 t).symm.trans hu)
  constructor
  · rw [State.setPc_reg, State.reg_setSp_other _ _ hr2, State.reg_setReg_same, hsp]
    exact load_pushed ht
  · calc ((t.setReg r2 (t.load t.sp)).setSp ((t.setReg r2 (t.load t.sp)).sp + 1)).sp
      _ = t.sp + 1 := by rw [State.sp_setSp, State.sp_setReg, if_neg hr2]
      _ = s.sp := by rw [hsp, BitVec.sub_add_cancel]

/-- Settles O23: PUSH's row of the table, its effect, its bad operand, SP 0 under `Fault`, and POP after it. -/
theorem pushStoresBelowStackPointer : Obligations.PushStoresBelowStackPointer := by
  refine ⟨encodedAs_instrOf .push, fun r s => ?_, fun _ => raisesInvalidRegister_of_bind fun _ => rfl,
    fun r s h => execUnder_raises (handlePush_fault_at_zero r h), fun _ _ _ _ _ => push_pop⟩
  rw [exec_push, State.reg_setSp]
  rfl

/-! ### PUSH under `SourceQuirk` -/

/-- PUSH's handler under `SourceQuirk`: the register decremented, then stored at SP, then 2 on (R131). -/
theorem handlePush_sourceQuirk (o : Config.OverflowPolicy) (r : RegIdx) (s : State) :
    handlePush ⟨o, .sourceQuirk⟩ (regByte r) s =
      wrap8 o (((s.reg r).toNat : Int) - 1) >>= fun v =>
        advance ⟨o, .sourceQuirk⟩ 2 ((s.setReg r v).store (s.setReg r v).sp ((s.setReg r v).reg r)) := by
  rw [handlePush, regOperand_regByte]
  rfl

/-- Under `Wrap` a fall-through is the one of this hardware, whatever PUSH's policy. -/
theorem advance_wrap (q : Config.PushPolicy) (n : Nat) (s : State) :
    advance ⟨.wrap, q⟩ n s = .ok (s.setPc (s.pc + BitVec.ofNat 8 n)) := advance_hardware n s

/-- Under `Wrap` and `SourceQuirk` PUSH completes (R131). -/
theorem execUnder_push_sourceQuirk (r : RegIdx) (s : State) :
    execUnder ⟨.wrap, .sourceQuirk⟩ (.push (regByte r)) s =
      .next (((s.setReg r (s.reg r - 1)).store (s.setReg r (s.reg r - 1)).sp (s.reg r - 1)).setPc (s.pc + 2)) := by
  rw [execUnder, handle, handlePush_sourceQuirk, wrap8_wrap, ofInt_pred, ok_bind, advance_wrap, State.reg_setReg_same,
    commit_ok]
  rfl

/-- Settles O24: the effect, R7, where the decremented register is SP itself, the bad operand, and the register 0 under
`Fault`. -/
theorem sourceQuirkPushDecrementsOperand : Obligations.SourceQuirkPushDecrementsOperand := by
  refine ⟨fun r s => ?_, fun s => ?_, fun r s h => execUnder_raises ?_, fun r s h => execUnder_raises ?_⟩
  · have hsp : (s.setReg r (s.reg r - 1)).sp = if r = 7 then s.reg 7 - 1 else s.reg 7 := by
      rw [State.sp_setReg]
      exact ite_congr rfl (fun hr => by rw [hr]) fun _ => rfl
    rw [execUnder_push_sourceQuirk, hsp]
    rfl
  · rw [execUnder_push_sourceQuirk, exec_push, State.sp_setReg, State.reg_setSp]
    rfl
  · rw [handle, handlePush, regOperand_of_ge h, error_bind]
  · rw [handle, handlePush_sourceQuirk, wrap8_fault_pred_zero h, error_bind]

/-! ### POP -/

/-- Under `Fault` POP raises `Overflow` with 256 where SP, as it stands after the register is written, is 255 (R132). -/
theorem handlePop_fault_at_255 (q : Config.PushPolicy) (h : (s.setReg r (s.load s.sp)).sp = 255) :
    handlePop ⟨.fault, q⟩ (regByte r) s = .error (.overflow 256) := by
  rw [handlePop, regOperand_regByte, ok_bind, raiseSp_fault_at_255 q h, error_bind]

/-- Settles O25: POP's row of the table, its effect on a register other than R7 and on R7, its bad operand, and SP 255
under `Fault`. -/
theorem popLoadsFromStackPointer : Obligations.PopLoadsFromStackPointer := by
  refine ⟨encodedAs_instrOf .pop, fun r s hr => ?_, fun s => ?_, fun _ => raisesInvalidRegister_of_bind fun _ => rfl,
    fun q r s h => execUnder_raises (handlePop_fault_at_255 q ((State.sp_setReg s r _).trans h))⟩
  · rw [exec_pop, State.sp_setReg, if_neg hr]
    rfl
  · rw [exec_pop, State.sp_setReg, if_pos rfl, State.setSp, Config.spIndex, State.setReg_setReg]
    rfl

/-! ### CALL -/

/-- Under `Fault` CALL with SP 0 raises `Overflow` with -1 (R133). -/
theorem handleCall_fault_at_zero (q : Config.PushPolicy) (r : RegIdx) (h : s.sp = 0) :
    handleCall ⟨.fault, q⟩ (regByte r) s = .error (.overflow (-1)) := by
  rw [handleCall_regByte, pushByte_fault_at_zero q _ h, error_bind]

/-- Under `Fault` CALL with SP above 0 and PC at most 253 is CALL on this hardware: neither SP - 1 nor PC + 2 is out of
range (R133). -/
theorem execUnder_call_fault_inside (q : Config.PushPolicy) (r : RegIdx) (hsp : s.sp ≠ 0) (hpc : s.pc.toNat ≤ 253) :
    execUnder ⟨.fault, q⟩ (.call (regByte r)) s = exec (.call (regByte r)) s := by
  have hret : wrap8 .fault (s.pc.toNat + 2) = .ok (s.pc + 2) :=
    (wrap8_fault_inside (by omega) (by omega)).trans (congrArg _ (ofInt_toNat_add s.pc 2))
  rw [exec_call, execUnder, handle, handleCall_regByte, pushByte_fault_inside q _ hsp, State.setSp_pc, hret, ok_bind,
    ok_bind, commit_ok]
  rfl

/-- Settles O26: CALL's row of the table, its effect, its bad operand, and SP 0 and SP above 0 under `Fault`. -/
theorem callPushesReturnAddress : Obligations.CallPushesReturnAddress := by
  refine ⟨encodedAs_instrOf .call, fun r s => ?_, fun _ => raisesInvalidRegister_of_bind fun _ => rfl,
    fun q r s h => execUnder_raises (handleCall_fault_at_zero q r h), fun q r _ => execUnder_call_fault_inside q r⟩
  rw [exec_call, State.reg_setSp]
  rfl

/-! ### RET -/

/-- CALL then RET goes on after the CALL with every register as before: RET pops the return address, and raises SP by
what CALL lowered it (R134). -/
theorem call_ret (ht : exec (.call (regByte r)) s = .next t) (hu : exec .ret t = .next u) :
    u.pc = s.pc + 2 ∧ u.regs = s.regs := by
  obtain ⟨hsp, hregs⟩ : t.sp = s.sp - 1 ∧ t.regs = s.regs.set Config.spIndex (s.sp - 1) := by
    obtain rfl := Host.Outcome.next.inj ((exec_call r s).symm.trans ht)
    exact ⟨State.sp_setSp s _, rfl⟩
  obtain rfl := Host.Outcome.next.inj ((exec_ret t).symm.trans hu)
  constructor
  · rw [State.setSp_pc, State.setPc_pc, hsp]
    exact load_called ht
  · calc t.regs.set Config.spIndex (t.sp + 1)
      _ = s.regs.set Config.spIndex s.sp := by rw [hsp, BitVec.sub_add_cancel, hregs, Vector.set_set]
      _ = s.regs := Vector.set_getElem_self ..

/-- Under `Fault` RET with SP 255 raises `Overflow` with 256 (R134). -/
theorem handleRet_fault_at_255 (q : Config.PushPolicy) (h : s.sp = 255) :
    handleRet ⟨.fault, q⟩ s = .error (.overflow 256) :=
  raiseSp_fault_at_255 q ((State.setPc_sp s _).trans h)

/-- Under `Fault` RET with SP below 255 is RET on this hardware (R134). -/
theorem handleRet_fault_inside (q : Config.PushPolicy) (h : s.sp ≠ 255) :
    handleRet ⟨.fault, q⟩ s = handleRet Config.hardware s :=
  raiseSp_fault_inside q ((State.setPc_sp s _).trans_ne h)

/-- Settles O27: RET's row of the table, its effect, SP 255 and SP below 255 under `Fault`, and RET after CALL. -/
theorem retPopsReturnAddress : Obligations.RetPopsReturnAddress :=
  ⟨encodedAs_instrOf .ret, exec_ret, fun q _ h => execUnder_raises (handleRet_fault_at_255 q h),
    fun q s h => congrArg (commit s) (handleRet_fault_inside q h), fun _ _ _ _ => call_ret⟩

end Sys2Proof.Machine
end

section
/-! SUPPORT. The statements of the family 44_branch: JMP, JEQ and JNE, and the run of a JMP to its own address
(44_branch.md R150 to R152). -/

namespace Sys2Proof.Machine

variable {taken : Bool} {r : RegIdx} {s : State}

/-! ### JMP, JEQ and JNE -/

/-- A branch that is taken completes at the register's byte (R150 to R152). -/
theorem commit_branch_taken (r : RegIdx) (h : taken = true) :
    commit s (branch Config.hardware taken (regByte r) s) = .next (s.setPc (s.reg r)) := by
  rw [h, branch_taken, commit_ok]

/-- On this hardware a branch that is not taken completes 2 on (R151, R152). -/
theorem commit_branch_not_taken (r : RegIdx) (h : taken = false) :
    commit s (branch Config.hardware taken (regByte r) s) = .next (s.setPc (s.pc + 2)) := by
  rw [h, branch_not_taken, advance_hardware, commit_ok]
  rfl

theorem exec_jmp (r : RegIdx) (s : State) : exec (.jmp (regByte r)) s = .next (s.setPc (s.reg r)) :=
  commit_branch_taken r rfl

/-- JMP to the register's byte changes nothing where the register holds PC (R150). -/
theorem exec_jmp_self (h : s.reg r = s.pc) : exec (.jmp (regByte r)) s = .next s := by
  rw [exec_jmp, h]
  rfl

/-- Settles O28: JMP's row of the table, its effect, its bad operand, and the jump to its own address. -/
theorem jmpSetsPc : Obligations.JmpSetsPc :=
  ⟨encodedAs_instrOf .jmp, exec_jmp, fun _ => raisesInvalidRegister_of_bind fun _ => rfl, fun _ _ => exec_jmp_self⟩

/-- Settles O29: JEQ's row of the table, its effect with E set, where it is taken, and with E clear, and its bad operand,
which is read before E. -/
theorem jeqJumpsWhenEqual : Obligations.JeqJumpsWhenEqual :=
  ⟨encodedAs_instrOf .jeq, fun r _ hE => commit_branch_taken r hE, fun r _ hE => commit_branch_not_taken r hE,
    fun _ => raisesInvalidRegister_of_bind fun _ => rfl⟩

/-- Settles O30: JNE's row of the table, its effect with E clear, where it is taken, and with E set, and its bad operand,
which is read before E. -/
theorem jneJumpsWhenNotEqual : Obligations.JneJumpsWhenNotEqual :=
  ⟨encodedAs_instrOf .jne, fun r _ hE => commit_branch_taken r (congrArg not hE),
    fun r _ hE => commit_branch_not_taken r (congrArg not hE), fun _ => raisesInvalidRegister_of_bind fun _ => rfl⟩

/-! ### A run that stays where it is -/

/-- A machine whose step answers the state it was in is there after any number of steps. -/
theorem run_of_step_self {M : Host.Core} {s : M.State} (h : M.step s = .next s) (n : Nat) : M.run n s = .next s := by
  induction n with
  | zero => rfl
  | succ n ih =>
    rw [Host.Core.run, h]
    exact ih

/-- In RUNNING, JMP to its own address is a step to the same state (R87, R150). -/
theorem step_jmp_self (hp : s.phase = .running) (hop : s.load s.pc = opcodeByte .jmp)
    (ha : s.load (s.pc + 1) = regByte r) (hr : s.reg r = s.pc) : step s = .next s := by
  rw [step_of_opcode hp hop, ha, instrOf, exec_jmp_self hr]

/-- Settles O52: the step is to the same state, and so is every step after it. -/
theorem jumpToSelfRunsForever : Obligations.JumpToSelfRunsForever :=
  fun _ _ hp hop ha hr => run_of_step_self (M := core) (step_jmp_self hp hop ha hr)

end Sys2Proof.Machine
end

section
/-! SUPPORT. The statements of the family 60_exceptions: which fault a step takes, what taking it leaves, and the debug
snapshot (60_exceptions.md R170 to R176, R183). -/

namespace Sys2Proof.Machine

variable {p : Config.Policy} {o : Opcode} {a b : Byte} {s t : State} {c : FaultCause}

/-! ### A step by its opcode, where the fetch passes -/

/-- The fetch passes under `Wrap`, and under `Fault` up to PC 253 (R81). -/
theorem fetch_passes (h : p.overflow = .wrap ∨ s.pc.toNat ≤ 253) :
    fetch p s = .ok ⟨s.load s.pc, s.load (s.pc + 1), s.load (s.pc + 2)⟩ := by
  obtain ⟨policy, q⟩ := p
  cases policy with
  | wrap => exact fetch_hardware s
  | fault => exact fetch_fault_inside q (h.resolve_left nofun)

/-- After a fetch that passes, an opcode outside the table is taken as `InvalidOpcode`, under any policy (R171). -/
theorem stepUnder_opcode_none (hp : s.phase = .running) (hf : p.overflow = .wrap ∨ s.pc.toNat ≤ 253)
    (ho : opcodeOfByte (s.load s.pc) = none) : stepUnder p s = .next (takeFault .invalidOpcode s) :=
  stepBy_refused (e := .invalidOpcode (s.load s.pc)) hp (fetch_passes hf) (by rw [decode, ho])

/-- After a fetch that passes, an opcode of the table runs its instruction, under any policy (R82, R83). -/
theorem stepUnder_opcode_some (hp : s.phase = .running) (hf : p.overflow = .wrap ∨ s.pc.toNat ≤ 253)
    (ho : opcodeOfByte (s.load s.pc) = some o) :
    stepUnder p s = execUnder p (instrOf o (s.load (s.pc + 1)) (s.load (s.pc + 2))) s :=
  stepBy_decoded hp (fetch_passes hf) (by rw [decode, ho])

/-! ### InvalidOpcode -/

/-- The numbers below 256 whose byte stands in a list are those of the list's bytes. -/
theorem filter_mem_perm_toNat {l : List Byte} (hl : l.Nodup) :
    ((List.range 256).filter fun n => decide (BitVec.ofNat 8 n ∈ l)).Perm (l.map BitVec.toNat) := by
  refine (List.perm_ext_iff_of_nodup (List.nodup_range.filter _) (hl.map fun _ _ => BitVec.eq_of_toNat_eq)).mpr
    fun n => ?_
  rw [List.mem_filter, List.mem_range, decide_eq_true_eq, List.mem_map]
  constructor
  · exact fun ⟨hn, hmem⟩ => ⟨_, hmem, Nat.mod_eq_of_lt hn⟩
  · rintro ⟨b, hb, rfl⟩
    exact ⟨b.isLt, by rwa [BitVec.ofNat_toNat, BitVec.setWidth_eq]⟩

/-- Of the 256 byte values, all but as many as a list holds are outside it. -/
theorem length_filter_not_mem {l : List Byte} (hl : l.Nodup) :
    ((List.range 256).filter fun n => decide (BitVec.ofNat 8 n ∉ l)).length = 256 - l.length := by
  have hin := (filter_mem_perm_toNat hl).length_eq
  have hall := List.length_eq_length_filter_add (l := List.range 256) fun n => decide (BitVec.ofNat 8 n ∈ l)
  rw [List.length_map] at hin
  simp only [List.length_range, ← decide_not] at hall
  omega

/-- A step of this hardware at a byte outside the table takes `InvalidOpcode` (R171). -/
theorem step_illegalOpcode (hp : s.phase = .running) (ho : s.load s.pc ∉ opcodeBytes) :
    step s = .next (takeFault .invalidOpcode s) := by
  rw [mem_opcodeBytes, not_not] at ho
  exact stepUnder_hardware s ▸ stepUnder_opcode_none hp (.inl rfl) ho

/-- Settles O6: the fault at a byte outside the table, the count of these bytes, and 0x00 as one of them, which is the
opcode at PC 0 where every cell is 0. -/
theorem illegalOpcodeFaults : Obligations.IllegalOpcodeFaults := by
  have hzero : (0x00 : Byte) ∉ opcodeBytes := by decide
  refine ⟨fun _ => step_illegalOpcode, length_filter_not_mem (by decide), hzero, fun s hp hpc hmem => ?_⟩
  rw [step_illegalOpcode hp (hmem s.pc ▸ hzero), takeFault, hmem, hpc]

/-! ### Taking a fault -/

/-- Settles O10: a step that ends FAULTED has taken a fault, and the rest is what `takeFault` writes. -/
theorem takenFaultRecordsAndStops : Obligations.TakenFaultRecordsAndStops := by
  intro s t h ht
  obtain ⟨c, -, rfl⟩ := step_faulted h ht
  exact ⟨c, rfl, stepBy_stuck rfl, rfl⟩

/-! ### The causes under `Wrap` -/

/-- A step that ends FAULTED has taken one of the faults that a step can raise, under any policy (R170). -/
theorem stepUnder_faulted_cause (h : stepUnder p s = .next t) (ht : t.phase = .faulted) :
    ∃ c, StepRaises p s c ∧ t = takeFault c s := by
  obtain ⟨hp, hfault | ⟨o, -, hok⟩⟩ := stepUnder_cases h
  · exact hfault
  · exact absurd ht (handle_ok_not_faulted hp hok)

/-- Under `Wrap` no overflow is raised (R175). -/
theorem not_raisesOverflow_wrap (q : Config.PushPolicy) : ¬ RaisesOverflow ⟨.wrap, q⟩ c := fun h => nomatch h.1

/-- Settles O12: of the causes of a step, `Wrap` leaves out the overflow. -/
theorem onlyTwoFaultKindsUnderWrap : Obligations.OnlyTwoFaultKindsUnderWrap := by
  intro q s t h ht
  obtain ⟨c, hov | ⟨rfl, ho⟩ | ⟨b, hb, rfl, ho, hat⟩, rfl⟩ := stepUnder_faulted_cause h ht
  · exact absurd hov (not_raisesOverflow_wrap q)
  · exact .inl ⟨rfl, fun hin => (mem_opcodeBytes _).mp hin ho⟩
  · exact .inr ⟨b, rfl, hb, (mem_opcodeBytes _).mpr ho, hat⟩

/-! ### The order of the faults -/

/-- The handler of an instruction with operands first reads byte 1 as a register (R84). -/
theorem handle_reads_first (ho : opcodeFormat o ≠ .z) :
    ∃ f, handle p (instrOf o a b) s = regOperand a >>= f := by
  cases o with
  | hlt | ret => exact absurd rfl ho
  | ldi | prn | add | mul | push | pop | call | cmp | jmp | jeq | jne => exact ⟨_, rfl⟩

/-- An instruction with operands raises for a byte 1 that names no register, whatever byte 2 is (R176). -/
theorem handle_bad_first (ho : opcodeFormat o ≠ .z) (ha : 8 ≤ a.toNat) :
    handle p (instrOf o a b) s = .error (.invalidRegister a) := by
  obtain ⟨f, hf⟩ := handle_reads_first ho
  rw [hf, regOperand_of_ge ha, error_bind]

/-- The instructions of format RR are those of the ALU (R63). -/
theorem handle_of_format_rr (ho : opcodeFormat o = .rr) :
    ∃ tag, handle p (instrOf o a b) s = aluInstr p tag a b s := by
  cases o with
  | add | mul | cmp => exact ⟨_, rfl⟩
  | hlt | ldi | prn | push | pop | call | ret | jmp | jeq | jne => cases ho

/-- An instruction of format RR raises for a byte 2 that names no register, where byte 1 names one (R176). -/
theorem handle_bad_second (ho : opcodeFormat o = .rr) (ha : a.toNat < 8) (hb : 8 ≤ b.toNat) :
    handle p (instrOf o a b) s = .error (.invalidRegister b) := by
  obtain ⟨r, rfl⟩ := (byte_cases a).resolve_right (Nat.not_le.mpr ha)
  obtain ⟨tag, hf⟩ := handle_of_format_rr ho
  rw [hf, aluInstr_bad_b p tag r s hb]

/-- The one fault of a well-formed instruction is an overflow its handler computes, under `Fault` (R176). -/
theorem execUnder_wellFormed_faulted {i : Instr} (hp : s.phase = .running) (hi : i.wellFormed = true)
    (h : execUnder p i s = .next t) (ht : t.phase = .faulted) : ∃ c, RaisesOverflow p c ∧ t = takeFault c s := by
  rcases commit_cases h with hok | ⟨c, hc, htake⟩
  · exact absurd ht (handle_ok_not_faulted hp hok)
  · exact ⟨c, (handle_error hc).resolve_left fun ⟨_, _, _, _, hbad⟩ => (nomatch hi.symm.trans hbad), htake⟩

/-- Settles O13: the fetch, then the opcode, then the two operand bytes, then what the handler computes. -/
theorem firstFaultInOrderIsTaken : Obligations.FirstFaultInOrderIsTaken := by
  intro p s hp
  refine ⟨fun hfault hpc => ?_, fun hf => ⟨stepUnder_opcode_none hp hf, fun o ho => ?_⟩⟩
  · obtain ⟨policy, q⟩ := p
    obtain rfl : policy = .fault := hfault
    exact stepUnder_fault_outside q hp hpc
  · rw [stepUnder_opcode_some hp hf ho]
    refine ⟨fun hformat ha => execUnder_raises (handle_bad_first hformat ha),
      fun hformat ha hb => execUnder_raises (handle_bad_second hformat ha hb), fun hgood t h ht => ?_⟩
    obtain ⟨c, ⟨hfault, v, hv, rfl⟩, htake⟩ := execUnder_wellFormed_faulted hp hgood h ht
    exact ⟨hfault, v, hv, htake⟩

/-! ### The snapshot -/

/-- The snapshot's byte `k` is the one at PC + `k` modulo 256 (R183). -/
theorem hostSnapshot_bytes (s : State) (k : Nat) (h : k < 3) :
    (hostSnapshot s).bytes[k] = s.load (s.pc + BitVec.ofNat 8 k) := by
  match k, h with
  | 0, _ => exact congrArg s.load (BitVec.add_zero s.pc).symm
  | 1, _ | 2, _ => rfl

/-- Settles O48: the snapshot's bytes, which the fetch of this hardware delivers as well, and its two views of the
state. -/
theorem snapshotShowsNextFetch : Obligations.SnapshotShowsNextFetch :=
  fun s => ⟨rfl, hostSnapshot_bytes s, fetch_hardware s, fun _ => rfl⟩

end Sys2Proof.Machine
end

section
/-! SUPPORT. The statements of the family 70_reset_and_hazards: reset, the host's load and run, and the states they and
the core's steps reach (70_reset_and_hazards.md R190 to R195). -/

namespace Sys2Proof.Machine

variable {image : List Byte} {m : Memory} {s t : State} {i : Nat}

/-! ### Reset -/

/-- Settles O45: every register reads 0, and the other values are reset's own fields. -/
theorem resetState : Obligations.ResetState :=
  ⟨fun _ => rfl, fun r => Vector.getElem_replicate r.isLt, rfl, rfl, rfl, rfl, rfl⟩

/-! ### What the bytes of an image leave in memory -/

/-- The cells before and after the run of addresses an image is placed at keep their bytes. -/
theorem loadBytes_read_outside {a : Byte} (hfit : i + image.length ≤ 256)
    (ha : a.toNat < i ∨ i + image.length ≤ a.toNat) : (loadBytes i image m).read a = m.read a := by
  induction image generalizing i m with
  | nil => rfl
  | cons v image ih =>
    rw [List.length_cons] at hfit ha
    have hne : BitVec.ofNat 8 i ≠ a := by bv_omega
    calc (loadBytes (i + 1) image (m.write (BitVec.ofNat 8 i) v)).read a
      _ = (m.write (BitVec.ofNat 8 i) v).read a := ih (by omega) (by omega)
      _ = m.read a := m.read_write_other v hne

/-- An image placed from address `i` on has its byte `k` at address `i + k`. -/
theorem loadBytes_read_placed (hfit : i + image.length ≤ 256) (k : Nat) (hk : k < image.length) :
    (loadBytes i image m).read (BitVec.ofNat 8 (i + k)) = image[k] := by
  induction image generalizing i m k with
  | nil => exact absurd hk (Nat.not_lt_zero k)
  | cons v image ih =>
    rw [List.length_cons] at hfit hk
    cases k with
    | zero =>
      calc (loadBytes (i + 1) image (m.write (BitVec.ofNat 8 i) v)).read (BitVec.ofNat 8 i)
        _ = (m.write (BitVec.ofNat 8 i) v).read (BitVec.ofNat 8 i) :=
          loadBytes_read_outside (by omega) (.inl (by rw [BitVec.toNat_ofNat]; omega))
        _ = v := m.read_write_same _ v
    | succ k =>
      rw [← Nat.add_assoc, Nat.add_right_comm]
      exact ih (by omega) k (by omega)

/-! ### The host's load and run, by the phase -/

/-- In LOAD an image that fits is placed from address 0 on (R194). -/
theorem hostLoad_fits (hp : s.phase = .load) (hfit : image.length ≤ 256) :
    hostLoad image s = .next { s with mem := loadBytes 0 image s.mem } := by
  simp [hostLoad, hp, Config.memSize, hfit]

/-- In LOAD an image longer than memory is refused (R194). -/
theorem hostLoad_too_long (hp : s.phase = .load) (hlong : 256 < image.length) :
    hostLoad image s = .refused .imageTooLong := by
  simp [hostLoad, hp, Config.memSize, hlong]

/-- Outside LOAD a load is refused. -/
theorem hostLoad_outside (hp : s.phase ≠ .load) : hostLoad image s = .refused .loadOutsideLoadPhase := if_pos hp

/-- A load that answers was issued in LOAD and changed memory alone. -/
theorem hostLoad_next (h : hostLoad image s = .next t) :
    s.phase = .load ∧ t = { s with mem := loadBytes 0 image s.mem } := by
  by_cases hp : s.phase = .load
  · rcases Nat.lt_or_ge 256 image.length with hlong | hfit
    · exact nomatch (hostLoad_too_long hp hlong).symm.trans h
    · exact ⟨hp, (Host.Outcome.next.inj ((hostLoad_fits hp hfit).symm.trans h)).symm⟩
  · exact nomatch (hostLoad_outside hp).symm.trans h

/-- Settles O46, by the phase and the length of the image. -/
theorem hostLoadPlacesImage : Obligations.HostLoadPlacesImage := by
  refine ⟨fun image s hp hfit => ?_, fun _ _ => hostLoad_too_long, fun _ _ => hostLoad_outside⟩
  have hfit₀ : 0 + image.length ≤ 256 := by omega
  refine ⟨loadBytes 0 image s.mem, hostLoad_fits hp hfit, fun k hk => ?_, fun a ha => ?_⟩
  · rw [← loadBytes_read_placed hfit₀ k hk, Nat.zero_add]
  · exact loadBytes_read_outside hfit₀ (.inr (by omega))

/-- In LOAD, run moves to RUNNING and changes nothing else (R195). -/
theorem hostRun_load (hp : s.phase = .load) : hostRun s = .next { s with phase := .running } := if_pos hp

/-- Outside LOAD, run is refused (R195). -/
theorem hostRun_outside (hp : s.phase ≠ .load) : hostRun s = .refused .runOutsideLoadPhase := if_neg hp

/-- Settles O47, by the phase. -/
theorem hostRunStartsOnce : Obligations.HostRunStartsOnce := ⟨fun _ => hostRun_load, fun _ => hostRun_outside⟩

/-- A run that answers was issued in LOAD and moved the phase alone. -/
theorem hostRun_next (h : hostRun s = .next t) : s.phase = .load ∧ t = { s with phase := .running } := by
  by_cases hp : s.phase = .load
  · exact ⟨hp, (Host.Outcome.next.inj ((hostRun_load hp).symm.trans h)).symm⟩
  · exact nomatch (hostRun_outside hp).symm.trans h

/-! ### The invariant in every reachable state -/

/-- Reset's state with a canonical memory, in any phase but FAULTED, meets the invariant. Every state before the first
step has this form. -/
theorem inv_reset_with {ph : Phase} (hm : m.wf = true) (hph : ph ≠ .faulted) :
    Inv { State.reset with mem := m, phase := ph } where
  memory := hm
  flags := .inl rfl
  recorded := iff_of_false hph fun h => h rfl
  fits _ hr := nomatch hr
  loading hl := by
    obtain rfl : ph = .load := hl
    rfl

/-- Settles O49. -/
theorem resetMeetsInvariant : Obligations.ResetMeetsInvariant := inv_reset_with reset_mem_wf nofun

/-- The host's load keeps the invariant: before it nothing but memory differs from reset. -/
theorem Inv.hostLoad (h : Inv s) (hload : hostLoad image s = .next t) : Inv t := by
  obtain ⟨hp, rfl⟩ := hostLoad_next hload
  rw [h.loading hp]
  exact inv_reset_with (loadBytes_wf image 0 s.mem h.memory) nofun

/-- The host's run keeps the invariant, as its load does. -/
theorem Inv.hostRun (h : Inv s) (hrun : hostRun s = .next t) : Inv t := by
  obtain ⟨hp, rfl⟩ := hostRun_next hrun
  rw [h.loading hp]
  exact inv_reset_with h.memory nofun

/-- Settles O51, by induction on the moves that reach the state; the core's own move is O50. -/
theorem reachableMeetsInvariant : Obligations.ReachableMeetsInvariant := by
  intro s hs
  induction hs with
  | reset => exact resetMeetsInvariant
  | load _ hload ih => exact ih.hostLoad hload
  | run _ hrun ih => exact ih.hostRun hrun
  | step _ hstep ih => exact stepKeepsInvariant _ _ ih hstep

end Sys2Proof.Machine
end
